-- ==== Sys2Proof/Word.lean ====
section
/-! DEFINITION. The two word sizes of the machine (00_scope R4: `BYTE`, `XLEN`, `SRLEN`, `AW`). -/

namespace Sys2Proof

/-- One 8-bit quantity: a register value, a memory byte, an instruction byte (R4: `XLEN` = `BYTE` = 8). -/
abbrev Byte := BitVec 8

/-- A 16-bit address; PC and SP have this width too (R4: `AW` = 16). -/
abbrev Addr := BitVec 16

end Sys2Proof
end

