-- ==== Sys2Proof/Syntax.lean ====
section
/-! DEFINITION. The instructions: one constructor per row of opcode_table.json (30_encoding R54). -/

namespace Sys2Proof

/-- The 17 instructions. A register operand is the WHOLE operand byte, since an instruction whose register
byte is 8 to 255 is still that instruction and raises AddressingFault when it executes (R53, R62); an
address operand is the assembled 16-bit value (R52). Operands stand in encoding order. -/
inductive Instr where
  /-- 0x00, R91 -/
  | add
  /-- 0x01, R92 -/
  | sub
  /-- 0x02, R93 -/
  | mul
  /-- 0x03, R94 -/
  | div
  /-- 0x04, R95 -/
  | and
  /-- 0x05, R96 -/
  | or
  /-- 0x06, R97 -/
  | xor
  /-- 0x07, R98 -/
  | not
  /-- 0x08, R110: destination register byte, then address -/
  | load (r : Byte) (addr : Addr)
  /-- 0x09, R111: address, then source register byte (conflict C6) -/
  | store (addr : Addr) (r : Byte)
  /-- 0x0A, R112: destination register byte, then source register byte -/
  | move (rd rs : Byte)
  /-- 0x0B, R120 -/
  | jmp (addr : Addr)
  /-- 0x0C, R121 -/
  | jmpz (addr : Addr)
  /-- 0x0D, R122 -/
  | call (addr : Addr)
  /-- 0x0E, R123 -/
  | ret
  /-- 0x0F, R130 -/
  | halt
  /-- 0xA0, R131 -/
  | syscall
deriving DecidableEq, Repr

end Sys2Proof
end

