-- ==== Sys2Proof/Decode.lean ====
section
/-! DEFINITION. The decoder and the encoder, from the encoding tables of 30_encoding (R50 to R59). -/

namespace Sys2Proof

/-! ## Byte order -/

/-- `FetchWord`'s assembly: `addr = {hi, lo}`, the high byte from the lower address (R52, R34). -/
def beWord (hi lo : Byte) : Addr := hi ++ lo

/-- `v[15:8]` of a 16-bit value. -/
def hiByte (v : Addr) : Byte := v.extractLsb' 8 8

/-- `v[7:0]` of a 16-bit value. -/
def loByte (v : Addr) : Byte := v.extractLsb' 0 8

/-! ## The opcode map -/

/-- One row of the opcode table: a format of R50 with the instruction its operands make. -/
inductive Shape where
  /-- format N: no operand bytes -/
  | n (i : Instr)
  /-- format A: `addr[15:8]`, `addr[7:0]` -/
  | a (mk : Addr → Instr)
  /-- format RR: `rd`, `rs` -/
  | rr (mk : Byte → Byte → Instr)
  /-- format RA: `r`, `addr[15:8]`, `addr[7:0]` -/
  | ra (mk : Byte → Addr → Instr)
  /-- format AR: `addr[15:8]`, `addr[7:0]`, `r` -/
  | ar (mk : Addr → Byte → Instr)

/-- Instruction length in bytes, from the format alone (R50, R59). -/
def Shape.length : Shape → Nat
  | .n _ => 1
  | .a _ => 3
  | .rr _ => 3
  | .ra _ => 4
  | .ar _ => 4

/-- The complete opcode table, matched on the whole opcode byte (R54, R77); any other byte is illegal (R55). -/
def opcodeRow (op : Byte) : Option Shape :=
  match op with
  | 0x00#8 => some (.n .add)
  | 0x01#8 => some (.n .sub)
  | 0x02#8 => some (.n .mul)
  | 0x03#8 => some (.n .div)
  | 0x04#8 => some (.n .and)
  | 0x05#8 => some (.n .or)
  | 0x06#8 => some (.n .xor)
  | 0x07#8 => some (.n .not)
  | 0x08#8 => some (.ra .load)
  | 0x09#8 => some (.ar .store)
  | 0x0A#8 => some (.rr .move)
  | 0x0B#8 => some (.a .jmp)
  | 0x0C#8 => some (.a .jmpz)
  | 0x0D#8 => some (.a .call)
  | 0x0E#8 => some (.n .ret)
  | 0x0F#8 => some (.n .halt)
  | 0xA0#8 => some (.n .syscall)
  | _ => none

/-- How many bytes the step fetches after seeing this opcode byte, the opcode included: the row's length, or
the opcode byte alone when it is illegal (R55, R59). -/
def instrLength (op : Byte) : Nat :=
  match opcodeRow op with
  | some sh => sh.length
  | none => 1

/-- Take a row's operand bytes, in encoding order, off the front of a byte list (R51). -/
def Shape.read : Shape → List Byte → Option (Instr × List Byte)
  | .n i, rest => some (i, rest)
  | .a mk, hi :: lo :: rest => some (mk (beWord hi lo), rest)
  | .rr mk, rd :: rs :: rest => some (mk rd rs, rest)
  | .ra mk, r :: hi :: lo :: rest => some (mk r (beWord hi lo), rest)
  | .ar mk, hi :: lo :: r :: rest => some (mk (beWord hi lo) r, rest)
  | _, _ => none

/-- Why a byte list decodes to no instruction. -/
inductive DecodeError where
  /-- the opcode byte matches no row (R55): the step turns it into DecodeFault -/
  | unknownOpcode (op : Byte)
  /-- the list ends before the instruction does; never met by the step, whose bytes come from a circular
  memory (log 19) -/
  | truncated
deriving DecidableEq, Repr

/-- Decode one instruction from the front of a byte list, with the bytes that follow it. -/
def decode : List Byte → Except DecodeError (Instr × List Byte)
  | [] => .error .truncated
  | op :: rest =>
    match opcodeRow op with
    | none => .error (.unknownOpcode op)
    | some sh =>
      match sh.read rest with
      | none => .error .truncated
      | some r => .ok r

/-- The decoded instruction alone. -/
def decodeInstr (bytes : List Byte) : Option Instr :=
  match decode bytes with
  | .ok (i, _) => some i
  | .error _ => none

/-! ## The encoder -/

/-- The opcode byte of an instruction (R54). -/
def Instr.opcode : Instr → Byte
  | .add => 0x00#8
  | .sub => 0x01#8
  | .mul => 0x02#8
  | .div => 0x03#8
  | .and => 0x04#8
  | .or => 0x05#8
  | .xor => 0x06#8
  | .not => 0x07#8
  | .load _ _ => 0x08#8
  | .store _ _ => 0x09#8
  | .move _ _ => 0x0A#8
  | .jmp _ => 0x0B#8
  | .jmpz _ => 0x0C#8
  | .call _ => 0x0D#8
  | .ret => 0x0E#8
  | .halt => 0x0F#8
  | .syscall => 0xA0#8

/-- The operand bytes of an instruction in encoding order (R50, R51). -/
def Instr.operandBytes : Instr → List Byte
  | .add | .sub | .mul | .div | .and | .or | .xor | .not => []
  | .load r addr => [r, hiByte addr, loByte addr]
  | .store addr r => [hiByte addr, loByte addr, r]
  | .move rd rs => [rd, rs]
  | .jmp addr | .jmpz addr | .call addr => [hiByte addr, loByte addr]
  | .ret | .halt | .syscall => []

/-- The bytes of an instruction, byte 0 first (R50). -/
def encode (i : Instr) : List Byte := i.opcode :: i.operandBytes

/-! ## The opcode table's numbering of bits -/

/-- The bytes of an instruction given as the opcode table numbers its bits: byte `k` is bits `8k+7..8k`, every bit
from `nbits` up is 0, and the list is as long as the longest instruction (4 bytes). -/
def tableBytes (nbits w : Nat) : List Byte :=
  [BitVec.ofNat 8 (w % 2 ^ nbits),
   BitVec.ofNat 8 (w % 2 ^ nbits / 2 ^ 8),
   BitVec.ofNat 8 (w % 2 ^ nbits / 2 ^ 16),
   BitVec.ofNat 8 (w % 2 ^ nbits / 2 ^ 24)]

/-- What the decoder reads from an instruction whose bits are `w` in the opcode table's numbering. -/
def decodeTableWord (nbits w : Nat) : Option Instr := decodeInstr (tableBytes nbits w)

end Sys2Proof
end

