-- ==== Sys2Proof/Config.lean ====
section
/-! DEFINITION. The parameters of 00_scope R4. Every one has a fixed value; the spec leaves no value free. -/

namespace Sys2Proof.Config

/-- `RESET_VECTOR`: the value of PC after reset (R4, R21). -/
def resetVector : Addr := 0x0100#16

/-- `SP_RESET`: the value of SP after reset (R4, R21). -/
def spReset : Addr := 0x00FF#16

/-- `SR_RESET`: the value of SR after reset (R4, R21). -/
def srReset : Byte := 0x00#8

/-- `REG_RESET`: the value of each general register after reset (R4, R21; the spec's own decision D3).
DESIGN CHOICE, unsafe: log 3. -/
def regReset : Byte := 0x00#8

/-- The value of `fault_pc` before any fault (R18, R21; the spec's own decision D6).
DESIGN CHOICE, safe: log 8. -/
def faultPcReset : Addr := 0x0000#16

/-- The value of `fault_opcode` before any fault (R18, R21; the spec's own decision D6).
DESIGN CHOICE, safe: log 8. -/
def faultOpcodeReset : Byte := 0x00#8

/-- `MEM_SIZE`: the number of bytes of memory, and of an image (R4, R5). -/
def memSize : Nat := 65536

/-- What an address that memory does not list reads as: `State.reset` is the reset with the all-zero
image. DESIGN CHOICE, unsafe: log 1. -/
def unlistedByte : Byte := 0x00#8

end Sys2Proof.Config
end

