-- ==== Sys2Proof/Machine/State.lean ====
section
/-! DEFINITION. The machine's state (10_state), complete by R20, and its value after reset (R21). -/

namespace Sys2Proof.Machine

/-- The four fault kinds of 60_exceptions R140. Each is raised by `State.raise` inside a NEXT state, whose run
state becomes `faulted kind` (R76): the spec describes what taking a fault does, so the model takes it. `step`
never answers `Outcome.fault` (log 4). The numeric codes of R140 are `faultCode` in Ops.lean (log 22). -/
inductive Fault where
  /-- Raised by the step's dispatch: the opcode byte is in no row of the table (R141). Safe: the run ends, so no
  claim about a later state can be proved. -/
  | decodeFault
  /-- Raised by SYSCALL, always (R142). Safe, for the same reason. -/
  | notImplemented
  /-- Raised by DIV when `x[2] = 0` (R143). Safe, for the same reason (log 6). -/
  | divisionByZero
  /-- Raised by LOAD, STORE and MOVE on a register byte of 8 to 255 (R144). Safe, for the same reason (log 7). -/
  | addressingFault
deriving DecidableEq, Repr

/-- Why the model gives no next state. 93_implementation_defined: "the only things a model refuses are an image of
the wrong size and a step from a terminal state". -/
inductive Refusal where
  /-- An instruction with no meaning yet, rejected by name in its arm of `exec`. Safe. No arm uses it: every
  instruction has its meaning. -/
  | notModelled (mnemonic : String)
  /-- Raised by `step` in a terminal state (Halted or Faulted), from which no step is defined (10_state R17,
  decision D15). Safe (log 5). -/
  | terminalState
  /-- Raised by `boot` for an image that is not 65536 bytes long (00_scope R5, decision D14). Safe (log 11). -/
  | imageSize
deriving DecidableEq, Repr

/-- The run state `run` (10_state R17). -/
inductive RunState where
  | running
  | halted
  | faulted (kind : Fault)
deriving DecidableEq, Repr

/-- Memory as (address, byte) pairs. In the canonical form (`Mem.wf`) addresses rise strictly, lie in the address
space, and no entry equals what an unlisted address reads as. -/
abbrev Mem := List Host.Cell

/-- The number of a general register (R10: indexed 0 to 7). -/
abbrev Reg := Fin 8

/-- All the state the machine has (10_state R20). -/
structure State where
  /-- `x[0]` to `x[7]` (R10) -/
  regs : Vector Byte 8
  /-- the program counter (R12) -/
  pc : Addr
  /-- the stack pointer (R14) -/
  sp : Addr
  /-- the status register; bit 0 is ZERO (R15) -/
  sr : Byte
  /-- the run state (R17) -/
  run : RunState
  /-- `fault_pc` of the fault record (R18) -/
  faultPc : Addr
  /-- `fault_opcode` of the fault record (R18) -/
  faultOpcode : Byte
  /-- memory, `M[0]` to `M[65535]` (R19) -/
  mem : Mem
deriving DecidableEq, Repr

/-- The machine right after reset (R21, R160). Memory lists nothing: this is the reset with the all-zero image
(log 1); `boot` is the reset with any image. -/
def State.reset : State where
  regs := Vector.replicate 8 Config.regReset
  pc := Config.resetVector
  sp := Config.spReset
  sr := Config.srReset
  run := .running
  faultPc := Config.faultPcReset
  faultOpcode := Config.faultOpcodeReset
  mem := []

end Sys2Proof.Machine
end

