-- ==== Sys2Proof/Machine/Ops.lean ====
section
/-! DEFINITION. The named operations over memory, registers, PC and SP, and taking a fault
(00_scope section 5; 20_memory; 40_execution_cycle). -/

namespace Sys2Proof.Machine

/-! ## Memory as data -/

/-- The byte at address `a`: the listed one, or what an unlisted address reads as. -/
def Mem.read : Mem → Nat → Byte
  | [], _ => Config.unlistedByte
  | (k, b) :: m, a => if k = a then b else Mem.read m a

/-- List `v` at address `a`, in its place. -/
def Mem.insert : Mem → Nat → Byte → Mem
  | [], a, v => [(a, v)]
  | (k, b) :: m, a, v =>
    if k < a then (k, b) :: Mem.insert m a v
    else if k = a then (a, v) :: m
    else (a, v) :: (k, b) :: m

/-- Take every entry for address `a` out of the list. -/
def Mem.erase (m : Mem) (a : Nat) : Mem := m.filter (fun c => decide (c.1 ≠ a))

/-- Write one byte, keeping the canonical form: a byte equal to what an unlisted address reads as is not listed. -/
def Mem.write (m : Mem) (a : Nat) (v : Byte) : Mem :=
  if v = Config.unlistedByte then Mem.erase m a else Mem.insert m a v

/-- The entries have strictly rising addresses from `lo` up, inside the address space, and none is redundant. -/
def Mem.wfFrom : Nat → Mem → Bool
  | _, [] => true
  | lo, (k, b) :: m =>
    decide (lo ≤ k) && decide (k < Config.memSize) && decide (b ≠ Config.unlistedByte) && Mem.wfFrom (k + 1) m

/-- The canonical form holds. -/
def Mem.wf (m : Mem) : Bool := Mem.wfFrom 0 m

/-- The canonical form of the bytes `bs` laid out from address `a` up. -/
def Mem.ofBytes : Nat → List Byte → Mem
  | _, [] => []
  | a, b :: bs => if b = Config.unlistedByte then Mem.ofBytes (a + 1) bs else (a, b) :: Mem.ofBytes (a + 1) bs

/-! ## Memory access -/

/-- `MemRead(addr, 1)`: always succeeds, changes nothing (R31). -/
def State.readMem (s : State) (a : Addr) : Byte := Mem.read s.mem a.toNat

/-- `MemWrite(addr, 1, v)`: always succeeds, changes that byte only (R32). -/
def State.writeMem (a : Addr) (v : Byte) (s : State) : State := { s with mem := Mem.write s.mem a.toNat v }

/-! ## Registers -/

/-- `x[i]` (R10). -/
def State.reg (s : State) (r : Reg) : Byte := s.regs[r]

/-- `x[i] <- v` (R10): no register is hard-wired. -/
def State.setReg (r : Reg) (v : Byte) (s : State) : State := { s with regs := s.regs.set r v }

/-- `pc <- target` (R12). -/
def State.setPc (target : Addr) (s : State) : State := { s with pc := target }

/-- `sp <- v` (R14). -/
def State.setSp (v : Addr) (s : State) : State := { s with sp := v }

/-- `run <- r` (R17). -/
def State.setRun (r : RunState) (s : State) : State := { s with run := r }

/-! ## Fetching instruction bytes -/

/-- `FetchByte()`: the byte at PC, and PC one further modulo 65536 (R71). -/
def State.fetchByte (s : State) : Byte × State := (s.readMem s.pc, s.setPc (s.pc + 1#16))

/-- `FetchWord()`: two fetched bytes, high byte first (R72). -/
def State.fetchWord (s : State) : Addr × State :=
  let (hi, s1) := s.fetchByte
  let (lo, s2) := s1.fetchByte
  (beWord hi lo, s2)

/-- `n` uses of `FetchByte`, the first byte first. -/
def State.fetchBytes : Nat → State → List Byte × State
  | 0, s => ([], s)
  | n + 1, s =>
    let (b, s1) := s.fetchByte
    let (bs, s2) := State.fetchBytes n s1
    (b :: bs, s2)

/-- The bytes of the instruction at PC: the opcode byte, and then as many operand bytes as its row calls for, none for
an illegal opcode (R55, R59, R70). -/
def State.fetchInstrBytes (s : State) : List Byte :=
  (State.fetchBytes (instrLength s.fetchByte.1) s).1

/-- PC past the `n` bytes of an instruction: what `n` fetches leave of the state (R13 (a), R71). -/
def State.advance (n : Nat) (s : State) : State := s.setPc (s.pc + BitVec.ofNat 16 n)

/-! ## The stack -/

/-- `Push(v)`: SP decrements, then the byte is written at it (R74); no bounds check. -/
def State.push (v : Byte) (s : State) : State :=
  let s1 := s.setSp (s.sp - 1#16)
  s1.writeMem s1.sp v

/-- `Pop()`: the byte at SP is read, then SP increments (R75); no bounds check. -/
def State.pop (s : State) : Byte × State := (s.readMem s.sp, s.setSp (s.sp + 1#16))

/-! ## Taking a fault -/

/-- `raise kind` (R76): the run state and the fault record are written, and nothing else; control goes nowhere and there
is no return (R145, R147). `pc0` is the address of the opcode byte and `op` that byte; `s` is the state with PC past the
bytes the step has fetched. -/
def State.raise (kind : Fault) (pc0 : Addr) (op : Byte) (s : State) : State :=
  { s with run := .faulted kind, faultPc := pc0, faultOpcode := op }

/-- The step's own fault (R70, R141): an illegal opcode `op` at PC, of which exactly that one byte is consumed (R55). -/
def State.decodeFault (op : Byte) (s : State) : State := (s.advance 1).raise .decodeFault s.pc op

/-! ## What the host sees -/

/-- The numeric fault code of R140 (the spec's own decision D7, log 22); no instruction can read it. -/
def faultCode : RunState → Nat
  | .running => 0
  | .halted => 0
  | .faulted .decodeFault => 1
  | .faulted .notImplemented => 2
  | .faulted .divisionByZero => 3
  | .faulted .addressingFault => 4

/-- The terminal condition the host reads once the run is over (R152): the run state and, on a fault, the fault record,
which means something only then (R18). -/
def State.report (s : State) : Option (RunState × Option (Addr × Byte)) :=
  match s.run with
  | .running => none
  | .halted => some (.halted, none)
  | .faulted k => some (.faulted k, some (s.faultPc, s.faultOpcode))

end Sys2Proof.Machine
end

