-- ==== Sys2Proof/Machine/Boot.lean ====
section
/-! DEFINITION. The start of a run (00_scope R5; 20_memory R42; 70_reset_and_hazards R160), and placing bytes in memory. -/

namespace Sys2Proof.Machine

/-- The reset sequence of R160: memory takes the image, everything else its reset value; an image that is not 65536 bytes
long gives no run (R5, decision D14, log 11). -/
def boot (image : List Byte) : Host.Outcome State Fault Refusal :=
  if image.length = Config.memSize then
    .next { State.reset with mem := Mem.ofBytes 0 image }
  else
    .refused .imageSize

/-- `s` with `bytes` written at `a`, `a + 1`, ... (modulo 65536). -/
def State.placeBytes : List Byte → Addr → State → State
  | [], _, s => s
  | b :: bs, a, s => State.placeBytes bs (a + 1#16) (s.writeMem a b)

end Sys2Proof.Machine
end

