-- ==== Sys2Proof/Machine/Flags.lean ====
section
/-! DEFINITION. The one flag, ZERO, bit 0 of the status register (10_state R15, R16; 41_alu R90). -/

namespace Sys2Proof.Machine

/-- `sr.Z`, the ZERO flag (R15). -/
def State.zero (s : State) : Bool := s.sr.getLsbD 0

/-- SR with bit 0 telling whether `v` is zero and bits 7:1 as they were (R90, R16; log 10). -/
def zeroInto (sr v : Byte) : Byte := (sr &&& 0xFE#8) ||| (if v = 0#8 then 1#8 else 0#8)

/-- `SetZ(v)` (R90). -/
def State.setZ (v : Byte) (s : State) : State := { s with sr := zeroInto s.sr v }

end Sys2Proof.Machine
end

