-- ==== Sys2Proof/Machine/Operands.lean ====
section
/-! DEFINITION. The operand forms: the checked register byte (40_execution_cycle R73), the fixed ALU registers
(41_alu R90), the absolute address (20_memory R44, 42_data_movement R113). -/

namespace Sys2Proof.Machine

/-- `RegIndex(b)`: the register a fetched byte selects, or `none` where it raises AddressingFault (R73). The index is never
reduced modulo 8 (R53). -/
def regIndex (b : Byte) : Option Reg :=
  if h : b.toNat < 8 then some ⟨b.toNat, h⟩ else none

/-- The left ALU source, `x[1]` (R90). -/
abbrev State.aluLeft (s : State) : Byte := s.reg 1

/-- The right ALU source, `x[2]` (R90). -/
abbrev State.aluRight (s : State) : Byte := s.reg 2

/-- The byte at a 16-bit absolute address, the source of LOAD (R113): the address is used as assembled (R45). -/
def State.loadAbsolute (s : State) (addr : Addr) : Byte := s.readMem addr

/-- Write a byte at a 16-bit absolute address, the destination of STORE (R113). -/
def State.storeAbsolute (addr : Addr) (v : Byte) (s : State) : State := s.writeMem addr v

end Sys2Proof.Machine
end

