-- ==== Sys2Proof/Machine/Alu.lean ====
section
/-! DEFINITION. The eight ALU instructions (41_alu R90 to R99). Every meaning takes the state with PC at the opcode byte
and ends with PC past the instruction. -/

namespace Sys2Proof.Machine

/-- What the eight have in common (R90): PC past the one byte, the result into `x[0]`, ZERO from that result. -/
def State.aluResult (v : Byte) (s : State) : State := ((s.advance 1).setReg 0 v).setZ v

/-- ADD (R91): the sum modulo 256. -/
def execAdd (s : State) : Host.Outcome State Fault Refusal :=
  .next (s.aluResult (s.aluLeft + s.aluRight))

/-- SUB (R92): left minus right modulo 256. -/
def execSub (s : State) : Host.Outcome State Fault Refusal :=
  .next (s.aluResult (s.aluLeft - s.aluRight))

/-- MUL (R93): the low 8 bits of the product. -/
def execMul (s : State) : Host.Outcome State Fault Refusal :=
  .next (s.aluResult (s.aluLeft * s.aluRight))

/-- DIV (R94): the unsigned truncated quotient; a zero divisor raises DivisionByZero and leaves `x[0]` and SR as they were
(decision D4, log 6). -/
def execDiv (s : State) : Host.Outcome State Fault Refusal :=
  if s.aluRight = 0#8 then
    .next ((s.advance 1).raise .divisionByZero s.pc 0x03#8)
  else
    .next (s.aluResult (s.aluLeft.udiv s.aluRight))

/-- AND (R95). -/
def execAnd (s : State) : Host.Outcome State Fault Refusal :=
  .next (s.aluResult (s.aluLeft &&& s.aluRight))

/-- OR (R96). -/
def execOr (s : State) : Host.Outcome State Fault Refusal :=
  .next (s.aluResult (s.aluLeft ||| s.aluRight))

/-- XOR (R97). -/
def execXor (s : State) : Host.Outcome State Fault Refusal :=
  .next (s.aluResult (s.aluLeft ^^^ s.aluRight))

/-- NOT (R98): the complement of `x[1]`; `x[2]` is not read. -/
def execNot (s : State) : Host.Outcome State Fault Refusal :=
  .next (s.aluResult (~~~ s.aluLeft))

end Sys2Proof.Machine
end

