-- ==== Sys2Proof/Machine/ControlTransfer.lean ====
section
/-! DEFINITION. JMP, JMPZ, CALL and RET (43_control_transfer R120 to R125). -/

namespace Sys2Proof.Machine

/-- JMP (R120). -/
def execJmp (addr : Addr) (s : State) : Host.Outcome State Fault Refusal :=
  .next ((s.advance 3).setPc addr)

/-- JMPZ (R121): not taken, PC is already past the operand. -/
def execJmpz (addr : Addr) (s : State) : Host.Outcome State Fault Refusal :=
  .next (if s.zero then (s.advance 3).setPc addr else s.advance 3)

/-- CALL (R122): the continuation address goes to the stack, low byte first, then high byte. -/
def execCall (addr : Addr) (s : State) : Host.Outcome State Fault Refusal :=
  let s1 := s.advance 3
  .next (((s1.push (loByte s1.pc)).push (hiByte s1.pc)).setPc addr)

/-- RET (R123): the high byte is popped first. -/
def execRet (s : State) : Host.Outcome State Fault Refusal :=
  let (hi, s1) := (s.advance 1).pop
  let (lo, s2) := s1.pop
  .next (s2.setPc (beWord hi lo))

end Sys2Proof.Machine
end

