-- ==== Sys2Proof/Machine/DataMovement.lean ====
section
/-! DEFINITION. LOAD, STORE and MOVE (42_data_movement R110 to R113). All operand bytes are fetched before any register byte is
checked, and the checks stand before the data effect (R80; log 7), so a fault leaves PC past the whole instruction. -/

namespace Sys2Proof.Machine

/-- LOAD (R110). -/
def execLoad (r : Byte) (addr : Addr) (s : State) : Host.Outcome State Fault Refusal :=
  match regIndex r with
  | none => .next ((s.advance 4).raise .addressingFault s.pc 0x08#8)
  | some d => .next ((s.advance 4).setReg d (s.loadAbsolute addr))

/-- STORE (R111). -/
def execStore (addr : Addr) (r : Byte) (s : State) : Host.Outcome State Fault Refusal :=
  match regIndex r with
  | none => .next ((s.advance 4).raise .addressingFault s.pc 0x09#8)
  | some x => .next ((s.advance 4).storeAbsolute addr (s.reg x))

/-- MOVE (R112): the destination byte is checked first (decision D16). -/
def execMove (rd rs : Byte) (s : State) : Host.Outcome State Fault Refusal :=
  match regIndex rd with
  | none => .next ((s.advance 3).raise .addressingFault s.pc 0x0A#8)
  | some d =>
    match regIndex rs with
    | none => .next ((s.advance 3).raise .addressingFault s.pc 0x0A#8)
    | some x => .next ((s.advance 3).setReg d (s.reg x))

end Sys2Proof.Machine
end

