-- ==== Sys2Proof/Machine/System.lean ====
section
/-! DEFINITION. HALT and SYSCALL (44_system R130 to R132). -/

namespace Sys2Proof.Machine

/-- HALT (R130): PC is past the opcode byte and the run is over. -/
def execHalt (s : State) : Host.Outcome State Fault Refusal :=
  .next ((s.advance 1).setRun .halted)

/-- SYSCALL (R131): raises NotImplemented, always. -/
def execSyscall (s : State) : Host.Outcome State Fault Refusal :=
  .next ((s.advance 1).raise .notImplemented s.pc 0xA0#8)

end Sys2Proof.Machine
end

