-- ==== Sys2Proof/Machine/Dispatch.lean ====
section
/-! DEFINITION. Dispatch: one arm per instruction (40_execution_cycle R77). -/

namespace Sys2Proof.Machine

def exec (i : Instr) (s : State) : Host.Outcome State Fault Refusal :=
  match i with
  | .add => Sys2Proof.Machine.execAdd s
  | .sub => Sys2Proof.Machine.execSub s
  | .mul => Sys2Proof.Machine.execMul s
  | .div => Sys2Proof.Machine.execDiv s
  | .and => Sys2Proof.Machine.execAnd s
  | .or => Sys2Proof.Machine.execOr s
  | .xor => Sys2Proof.Machine.execXor s
  | .not => Sys2Proof.Machine.execNot s
  | .load r addr => Sys2Proof.Machine.execLoad r addr s
  | .store addr r => Sys2Proof.Machine.execStore addr r s
  | .move rd rs => Sys2Proof.Machine.execMove rd rs s
  | .jmp addr => Sys2Proof.Machine.execJmp addr s
  | .jmpz addr => Sys2Proof.Machine.execJmpz addr s
  | .call addr => Sys2Proof.Machine.execCall addr s
  | .ret => Sys2Proof.Machine.execRet s
  | .halt => Sys2Proof.Machine.execHalt s
  | .syscall => Sys2Proof.Machine.execSyscall s

end Sys2Proof.Machine
end

