-- ==== Sys2Proof/Machine/Step.lean ====
section
/-! DEFINITION. The step (40_execution_cycle R70). -/

namespace Sys2Proof.Machine

/-- One step executes one instruction; it is defined only when the machine is Running (R70, R17). The instruction's bytes
are fetched and decoded; a decoded instruction executes from the state with PC at its opcode byte (log 13), an illegal
opcode raises DecodeFault. -/
def step (s : State) : Host.Outcome State Fault Refusal :=
  match s.run with
  | .running =>
    match decodeInstr s.fetchInstrBytes with
    | some i => exec i s
    | none => .next (s.decodeFault s.fetchByte.1)
  | .halted => .refused .terminalState
  | .faulted _ => .refused .terminalState

/-- `s` with the instruction whose bits are `w`, in the opcode table's numbering, stored at PC, and Running, so that the next
step fetches and runs it (log 2). -/
def State.withFetchWord (s : State) (nbits w : Nat) : State :=
  (State.placeBytes (tableBytes nbits w) s.pc s).setRun .running

end Sys2Proof.Machine
end

