-- ==== Sys2Proof/Safety.lean ====
section
/-! DEFINITION. The terms claims are made in: what two states share, how a run ends, and the machine's invariant. -/

namespace Sys2Proof.Machine

/-! ## What a step leaves alone -/

/-- The two states hold the same general registers. -/
def SameRegs (s t : State) : Prop := ∀ r : Reg, t.reg r = s.reg r

/-- The two states hold the same general registers, `d` apart. -/
def SameRegsBut (d : Reg) (s t : State) : Prop := ∀ r : Reg, r ≠ d → t.reg r = s.reg r

/-- Every byte of memory reads the same in both states. -/
def SameMem (s t : State) : Prop := ∀ a : Addr, t.readMem a = s.readMem a

/-- Every byte of memory outside `stored` reads the same in both states. -/
def SameMemBut (stored : List Addr) (s t : State) : Prop := ∀ a : Addr, a ∉ stored → t.readMem a = s.readMem a

/-- The two states have the same run state and fault record. -/
def SameRun (s t : State) : Prop := t.run = s.run ∧ t.faultPc = s.faultPc ∧ t.faultOpcode = s.faultOpcode

/-- Bits 7:1 of SR are the same in both states. -/
def SameUpperSr (s t : State) : Prop := t.sr &&& 0xFE#8 = s.sr &&& 0xFE#8

/-- `t` is `s` with fault `kind` taken by an instruction of `n` bytes fetched, whose opcode byte is `op` (R76): the only effects
are PC, the run state and the fault record. -/
def FaultTaken (kind : Fault) (n : Nat) (op : Byte) (s t : State) : Prop :=
  t.run = .faulted kind ∧ t.faultPc = s.pc ∧ t.faultOpcode = op ∧ t.pc.toNat = (s.pc.toNat + n) % 65536 ∧
  SameRegs s t ∧ t.sr = s.sr ∧ t.sp = s.sp ∧ SameMem s t

/-- What every ALU instruction leaves beside the value of `x[0]` (R90): ZERO tells whether that value is zero, PC is one
further, and nothing else has changed (that SR bits 7:1 have not is the spec's decision D10, log 10). -/
def AluDone (s t : State) : Prop :=
  (t.zero = true ↔ t.reg 0 = 0#8) ∧ t.pc.toNat = (s.pc.toNat + 1) % 65536 ∧
  SameRegsBut 0 s t ∧ SameUpperSr s t ∧ t.sp = s.sp ∧ SameMem s t ∧ SameRun s t

/-- The four bytes from PC up, modulo 65536: the longest instruction (R50, R35). -/
def State.window (s : State) : List Byte :=
  [s.readMem s.pc, s.readMem (s.pc + 1#16), s.readMem (s.pc + 2#16), s.readMem (s.pc + 3#16)]

/-- The opcode byte the next step fetches (R70). -/
def State.nextOpcode (s : State) : Byte := s.readMem s.pc

/-- The two bytes after the opcode byte as an address operand, format A (R51). -/
def State.operandAddr (s : State) : Addr := beWord (s.readMem (s.pc + 1#16)) (s.readMem (s.pc + 2#16))

/-- An opcode byte of no row of the table: 0x10 to 0x9F or 0xA1 to 0xFF (R55). -/
def IllegalOpcode (op : Byte) : Prop := 0x10 ≤ op.toNat ∧ op ≠ 0xA0#8

/-! ## How a run ends -/

/-- No step leaves the state (R17). -/
def State.Terminal (s : State) : Prop := s.run ≠ .running

/-- The one successful end of a run (decision D15: only `Halted`). -/
def State.EndedWell (s : State) : Prop := s.run = .halted

/-! ## The invariant -/

/-- What a fault of kind `kind` tells about the state it leaves (R140 to R144): the recorded opcode, the operand or register that
caused it, and how far PC is past the recorded address. -/
def FaultExplained (s : State) : Fault → Prop
  | .decodeFault => (opcodeRow s.faultOpcode).isNone ∧ s.pc = s.faultPc + 1#16
  | .notImplemented => s.faultOpcode = 0xA0#8 ∧ s.pc = s.faultPc + 1#16
  | .divisionByZero => s.faultOpcode = 0x03#8 ∧ s.reg 2 = 0#8 ∧ s.pc = s.faultPc + 1#16
  | .addressingFault =>
    (s.faultOpcode = 0x08#8 ∧ 8 ≤ (s.readMem (s.faultPc + 1#16)).toNat ∧ s.pc = s.faultPc + 4#16) ∨
    (s.faultOpcode = 0x09#8 ∧ 8 ≤ (s.readMem (s.faultPc + 3#16)).toNat ∧ s.pc = s.faultPc + 4#16) ∨
    (s.faultOpcode = 0x0A#8 ∧ (8 ≤ (s.readMem (s.faultPc + 1#16)).toNat ∨ 8 ≤ (s.readMem (s.faultPc + 2#16)).toNat) ∧
      s.pc = s.faultPc + 3#16)

/-- The invariant of the machine. -/
structure State.Inv (s : State) : Prop where
  /-- memory is in canonical form -/
  memWf : Mem.wf s.mem = true
  /-- SR bits 7:1 hold 0 (R15) -/
  srUpper : s.sr &&& 0xFE#8 = 0#8
  /-- the fault record is blank until a fault (R18) -/
  recordBlank : (∀ k, s.run ≠ .faulted k) → s.faultPc = 0#16 ∧ s.faultOpcode = 0#8
  /-- after a fault the record names an opcode that lies in memory at the recorded address -/
  recordTrue : ∀ k, s.run = .faulted k → s.readMem s.faultPc = s.faultOpcode
  /-- after a fault the state shows the cause its kind claims -/
  explained : ∀ k, s.run = .faulted k → FaultExplained s k

end Sys2Proof.Machine
end

