-- ==== Sys2Proof/WellFormed.lean ====
section
/-! DEFINITION. Which instructions carry only legal operand values (30_encoding R57).

Well-formedness restricts nothing in the machine: the decoder yields ill-formed instructions too, and they
execute, raising AddressingFault (R53, R62; log 17). It is the condition under which LOAD, STORE and MOVE
have their data effect. -/

namespace Sys2Proof

/-- A register byte with a legal value: 0 to 7 (R53, R57). -/
def legalRegByte (b : Byte) : Bool := decide (b.toNat < 8)

/-- Every operand value is legal (R57): the register bytes are 0 to 7; every address is legal. -/
def Instr.wellFormed : Instr → Bool
  | .add | .sub | .mul | .div | .and | .or | .xor | .not => true
  | .load r _ => legalRegByte r
  | .store _ r => legalRegByte r
  | .move rd rs => legalRegByte rd && legalRegByte rs
  | .jmp _ | .jmpz _ | .call _ => true
  | .ret | .halt | .syscall => true

end Sys2Proof
end

