-- ==== Sys2Proof/Certificates/Slice0/Obligations.lean ====
section
/-! DEFINITION. The statements about the model, for the provers. Each docstring names the rule of spec/ it formalises, or the
sections it is derived from and, where it rests on a choice, the log entry or the spec's decision. -/

open Sys2Proof Sys2Proof.Machine

/-! ## Encoding and decoding -/

/-- Derived from 30_encoding sections 1 to 3: decoding an encoded instruction, whatever bytes follow, gives it back with those
bytes, for every instruction and every operand value (the register bytes 8 to 255 among them). -/
def Obligations.DecodeOfEncode : Prop :=
  ∀ (i : Instr) (rest : List Byte), decode (encode i ++ rest) = .ok (i, rest)

/-- Derived from 30_encoding sections 1 to 3: every byte string has at most one reading, and no bit of it is dropped. -/
def Obligations.EncodeOfDecode : Prop :=
  ∀ (bytes rest : List Byte) (i : Instr), decode bytes = .ok (i, rest) → encode i ++ rest = bytes

/-- Derived from 30_encoding section 4: exactly the 239 bytes 0x10 to 0x9F and 0xA1 to 0xFF are rejected as opcodes. -/
def Obligations.IllegalOpcodesRejected : Prop :=
  ∀ (op : Byte) (rest : List Byte), decode (op :: rest) = .error (.unknownOpcode op) ↔ IllegalOpcode op

/-- Words written out from 30_encoding R50, R51, R54 and R61: one per format and family. -/
def Obligations.SpecWordsDecode : Prop :=
  decodeInstr [0x03#8] = some .div ∧
  decodeInstr [0x08#8, 0x01#8, 0x02#8, 0x00#8] = some (.load 1 0x0200) ∧
  decodeInstr [0x09#8, 0x03#8, 0x00#8, 0x00#8] = some (.store 0x0300 0) ∧
  decodeInstr [0x0A#8, 0x01#8, 0x00#8] = some (.move 1 0) ∧
  decodeInstr [0x0C#8, 0x01#8, 0x10#8] = some (.jmpz 0x0110) ∧
  decodeInstr [0xA0#8] = some .syscall

/-- Derived from 40_execution_cycle section 1: in a Running state whose bytes at PC decode to an instruction, the step is that
instruction's execution, from the same state, with nothing around it (log 13: the meaning itself moves PC past the bytes). -/
def Obligations.StepRunsDecodedInstr : Prop :=
  ∀ (s : State) (i : Instr) (rest : List Byte),
    s.run = .running → decode s.window = .ok (i, rest) → step s = exec i s

/-! ## Fetch, operand check and stack primitives -/

/-- 40_execution_cycle R71. -/
def Obligations.FetchByteReadsAndAdvances : Prop :=
  ∀ s : State, s.fetchByte.1 = s.readMem s.pc ∧ s.fetchByte.2.pc.toNat = (s.pc.toNat + 1) % 65536 ∧
    SameRegs s s.fetchByte.2 ∧ s.fetchByte.2.sr = s.sr ∧ s.fetchByte.2.sp = s.sp ∧
    SameMem s s.fetchByte.2 ∧ SameRun s s.fetchByte.2

/-- 40_execution_cycle R72; the last clause ties it to the machine: after the opcode byte it assembles the address operand the step's
JMP, JMPZ, CALL and STORE use. -/
def Obligations.FetchWordIsBigEndian : Prop :=
  ∀ s : State, s.fetchWord.1.toNat = (s.readMem s.pc).toNat * 256 + (s.readMem (s.pc + 1#16)).toNat ∧
    s.fetchWord.2.pc.toNat = (s.pc.toNat + 2) % 65536 ∧
    SameRegs s s.fetchWord.2 ∧ s.fetchWord.2.sr = s.sr ∧ s.fetchWord.2.sp = s.sp ∧
    SameMem s s.fetchWord.2 ∧ SameRun s s.fetchWord.2 ∧ s.fetchByte.2.fetchWord.1 = s.operandAddr

/-- Derived from 40_execution_cycle section 3: a register byte below 8 selects that register, any other selects none, and only
LOAD, STORE and MOVE, on such a byte, reach AddressingFault from a state that is not already in it. -/
def Obligations.RegIndexChecksExactlyRegisterOperands : Prop :=
  (∀ (b : Byte) (r : Reg), regIndex b = some r ↔ r.val = b.toNat) ∧
  (∀ b : Byte, regIndex b = none ↔ 8 ≤ b.toNat) ∧
  (∀ (i : Instr) (s t : State), s.run ≠ .faulted .addressingFault → exec i s = .next t →
    (t.run = .faulted .addressingFault ↔ i.wellFormed = false))

/-- Derived from 40_execution_cycle section 4 and 10_state section 3 (wrap at the ends of the address space: the spec's decision
D9, log 9): a push moves SP down one and writes at the new SP, a pop reads at SP and moves it up one, and a pop after a push
gives the byte back with SP as before. -/
def Obligations.PushAndPopAreInverse : Prop :=
  ∀ (s : State) (v : Byte),
    (s.push v).sp = s.sp - 1#16 ∧ (s.push v).readMem (s.sp - 1#16) = v ∧
    SameMemBut [s.sp - 1#16] s (s.push v) ∧ SameRegs s (s.push v) ∧ (s.push v).pc = s.pc ∧ (s.push v).sr = s.sr ∧
    SameRun s (s.push v) ∧
    s.pop.1 = s.readMem s.sp ∧ s.pop.2.sp = s.sp + 1#16 ∧ SameMem s s.pop.2 ∧ SameRegs s s.pop.2 ∧
    s.pop.2.pc = s.pc ∧ s.pop.2.sr = s.sr ∧ SameRun s s.pop.2 ∧
    (s.push v).pop.1 = v ∧ (s.push v).pop.2.sp = s.sp

/-! ## Memory, the image and reset -/

/-- 20_memory R32. -/
def Obligations.WriteChangesOneByteOnly : Prop :=
  ∀ (s : State) (a : Addr) (v : Byte),
    (s.writeMem a v).readMem a = v ∧ SameMemBut [a] s (s.writeMem a v) ∧
    SameRegs s (s.writeMem a v) ∧ (s.writeMem a v).pc = s.pc ∧ (s.writeMem a v).sp = s.sp ∧
    (s.writeMem a v).sr = s.sr ∧ SameRun s (s.writeMem a v)

/-- About the model's form of memory (log 1): canonical memories that read alike are the same data. -/
def Obligations.CanonicalMemoryIsDeterminedByReads : Prop :=
  ∀ m n : Mem, Mem.wf m = true → Mem.wf n = true →
    (∀ a : Addr, Mem.read m a.toNat = Mem.read n a.toNat) → m = n

/-- Derived from 20_memory section 6 and 70_reset_and_hazards section 1 (the registers' reset value is the spec's decision D3,
log 3): an image of 65536 bytes starts a run in which every memory byte is the image's and everything else is as after reset. -/
def Obligations.BootLoadsTheImage : Prop :=
  ∀ image : List Byte, image.length = 65536 →
    ∃ s : State, boot image = .next s ∧
      (∀ a : Addr, image[a.toNat]? = some (s.readMem a)) ∧ Mem.wf s.mem = true ∧
      SameRegs State.reset s ∧ s.pc = 0x0100#16 ∧ s.sp = 0x00FF#16 ∧ s.sr = 0x00#8 ∧ SameRun State.reset s

/-- Derived from 00_scope section 3 and the spec's decision D14 (log 11): an image of any other size gives no run. -/
def Obligations.BootRefusesOtherSizes : Prop :=
  ∀ image : List Byte, image.length ≠ 65536 → boot image = .refused .imageSize

/-- Derived from 10_state section 7: the reset values. The zero of the general registers is the spec's decision D3 (log 3), that of
the fault record its decision D6 (log 8), and that of memory the model's choice of image (log 1). -/
def Obligations.ResetLeavesTheTabledValues : Prop :=
  (∀ r : Reg, State.reset.reg r = 0x00#8) ∧ State.reset.pc = 0x0100#16 ∧ State.reset.sp = 0x00FF#16 ∧
  State.reset.sr = 0x00#8 ∧ State.reset.zero = false ∧ State.reset.run = .running ∧
  State.reset.faultPc = 0x0000#16 ∧ State.reset.faultOpcode = 0x00#8 ∧ (∀ a : Addr, State.reset.readMem a = 0x00#8)

/-- The invariant holds after reset (it rests on the spec's decisions D6 and D10, logs 8 and 10). -/
def Obligations.InvariantAtReset : Prop := State.reset.Inv

/-- Every step keeps the invariant, from every state that has it (log 1 for the memory's form; the spec's decisions D5, D6, D8 and
D10, logs 7, 8 and 10). -/
def Obligations.StepKeepsTheInvariant : Prop :=
  ∀ s t : State, s.Inv → step s = .next t → t.Inv

/-! ## The ALU instructions -/

/-- Derived from 41_alu sections 1 and 2 (ADD). `AluDone`'s clause that SR bits 7:1 are unchanged is the spec's decision D10, log 10. -/
def Obligations.AddWritesSumModulo256 : Prop :=
  encode .add = [0x00#8] ∧
  ∀ s : State, ∃ t : State, exec .add s = .next t ∧
    (t.reg 0).toNat = ((s.reg 1).toNat + (s.reg 2).toNat) % 256 ∧ AluDone s t

/-- Derived from 41_alu sections 1 and 2 (SUB). `AluDone`'s clause that SR bits 7:1 are unchanged is the spec's decision D10, log 10. -/
def Obligations.SubWritesDifferenceModulo256 : Prop :=
  encode .sub = [0x01#8] ∧
  ∀ s : State, ∃ t : State, exec .sub s = .next t ∧
    ((t.reg 0).toNat : Int) = (((s.reg 1).toNat : Int) - ((s.reg 2).toNat : Int)) % 256 ∧
    (t.zero = true ↔ s.reg 1 = s.reg 2) ∧ AluDone s t

/-- Derived from 41_alu sections 1 and 2 (MUL). `AluDone`'s clause that SR bits 7:1 are unchanged is the spec's decision D10, log 10. -/
def Obligations.MulWritesLowByteOfProduct : Prop :=
  encode .mul = [0x02#8] ∧
  ∀ s : State, ∃ t : State, exec .mul s = .next t ∧
    (t.reg 0).toNat = ((s.reg 1).toNat * (s.reg 2).toNat) % 256 ∧ AluDone s t

/-- Derived from 41_alu sections 1 and 2 (DIV, the case that does not fault). `AluDone`'s clause that SR bits 7:1 are unchanged is the spec's
decision D10, log 10. -/
def Obligations.DivWritesTruncatedQuotient : Prop :=
  encode .div = [0x03#8] ∧
  ∀ s : State, s.reg 2 ≠ 0#8 → ∃ t : State, exec .div s = .next t ∧
    (t.reg 0).toNat = (s.reg 1).toNat / (s.reg 2).toNat ∧
    (t.zero = true ↔ (s.reg 1).toNat < (s.reg 2).toNat) ∧ AluDone s t

/-- Derived from 41_alu section 2 (DIV) and 60_exceptions section 1: a zero divisor raises DivisionByZero, whatever the dividend is,
with `x[0]` and SR unchanged (the spec's decisions D4, D6 and D8, logs 6 to 8). -/
def Obligations.DivByZeroFaults : Prop :=
  ∀ s : State, s.reg 2 = 0#8 →
    ∃ t : State, exec .div s = .next t ∧ FaultTaken .divisionByZero 1 0x03#8 s t

/-- Derived from 41_alu sections 1 and 2 (AND). `AluDone`'s clause that SR bits 7:1 are unchanged is the spec's decision D10, log 10. -/
def Obligations.AndIsBitwise : Prop :=
  encode .and = [0x04#8] ∧
  ∀ s : State, ∃ t : State, exec .and s = .next t ∧
    (∀ k, k < 8 → (t.reg 0).getLsbD k = ((s.reg 1).getLsbD k && (s.reg 2).getLsbD k)) ∧
    (t.zero = true ↔ ∀ k, k < 8 → ¬ ((s.reg 1).getLsbD k = true ∧ (s.reg 2).getLsbD k = true)) ∧ AluDone s t

/-- Derived from 41_alu sections 1 and 2 (OR). `AluDone`'s clause that SR bits 7:1 are unchanged is the spec's decision D10, log 10. -/
def Obligations.OrIsBitwise : Prop :=
  encode .or = [0x05#8] ∧
  ∀ s : State, ∃ t : State, exec .or s = .next t ∧
    (∀ k, k < 8 → (t.reg 0).getLsbD k = ((s.reg 1).getLsbD k || (s.reg 2).getLsbD k)) ∧
    (t.zero = true ↔ s.reg 1 = 0#8 ∧ s.reg 2 = 0#8) ∧ AluDone s t

/-- Derived from 41_alu sections 1 and 2 (XOR). `AluDone`'s clause that SR bits 7:1 are unchanged is the spec's decision D10, log 10. -/
def Obligations.XorIsBitwise : Prop :=
  encode .xor = [0x06#8] ∧
  ∀ s : State, ∃ t : State, exec .xor s = .next t ∧
    (∀ k, k < 8 → (t.reg 0).getLsbD k = ((s.reg 1).getLsbD k ^^ (s.reg 2).getLsbD k)) ∧
    (t.zero = true ↔ s.reg 1 = s.reg 2) ∧ AluDone s t

/-- Derived from 41_alu sections 1 and 2 (NOT). `AluDone`'s clause that SR bits 7:1 are unchanged is the spec's decision D10, log 10. -/
def Obligations.NotComplementsR1 : Prop :=
  encode .not = [0x07#8] ∧
  ∀ s : State, ∃ t : State, exec .not s = .next t ∧
    (t.reg 0).toNat = 255 - (s.reg 1).toNat ∧
    (∀ k, k < 8 → (t.reg 0).getLsbD k = !(s.reg 1).getLsbD k) ∧
    (t.zero = true ↔ s.reg 1 = 0xFF#8) ∧ AluDone s t

/-- Derived from 41_alu section 1: the result and ZERO of an ALU instruction depend on R1 and R2 alone, and NOT's on R1 alone. -/
def Obligations.AluDependsOnlyOnR1AndR2 : Prop :=
  ∀ i ∈ [Instr.add, .sub, .mul, .div, .and, .or, .xor, .not], ∀ s s' t t' : State,
    exec i s = .next t → exec i s' = .next t' → s.reg 1 = s'.reg 1 →
    (i ≠ .not → s.reg 2 = s'.reg 2) → (i = .div → s.reg 2 ≠ 0#8) →
    t.reg 0 = t'.reg 0 ∧ t.zero = t'.zero

/-! ## The data movement instructions -/

/-- Derived from 42_data_movement (LOAD, register byte 0 to 7). -/
def Obligations.LoadMovesByteToRegister : Prop :=
  (∀ (b : Byte) (addr : Addr), encode (.load b addr) = [0x08#8, b, hiByte addr, loByte addr]) ∧
  ∀ (s : State) (b : Byte) (r : Reg) (addr : Addr), b.toNat = r.val →
    ∃ t : State, exec (.load b addr) s = .next t ∧ t.reg r = s.readMem addr ∧ SameRegsBut r s t ∧
      t.pc.toNat = (s.pc.toNat + 4) % 65536 ∧ t.sr = s.sr ∧ t.sp = s.sp ∧ SameMem s t ∧ SameRun s t

/-- Derived from 42_data_movement (STORE, register byte 0 to 7): the byte stored to is the operand address itself. -/
def Obligations.StoreMovesByteToMemory : Prop :=
  (∀ (b : Byte) (addr : Addr), encode (.store addr b) = [0x09#8, hiByte addr, loByte addr, b]) ∧
  ∀ (s : State) (b : Byte) (r : Reg) (addr : Addr), b.toNat = r.val →
    ∃ t : State, exec (.store addr b) s = .next t ∧ t.readMem addr = s.reg r ∧ SameMemBut [addr] s t ∧
      SameRegs s t ∧ t.pc.toNat = (s.pc.toNat + 4) % 65536 ∧ t.sr = s.sr ∧ t.sp = s.sp ∧ SameRun s t

/-- Derived from 42_data_movement (MOVE, both register bytes 0 to 7): a copy, first operand the destination. -/
def Obligations.MoveCopiesRegister : Prop :=
  (∀ bd bs : Byte, encode (.move bd bs) = [0x0A#8, bd, bs]) ∧
  ∀ (s : State) (bd bs : Byte) (d x : Reg), bd.toNat = d.val → bs.toNat = x.val →
    ∃ t : State, exec (.move bd bs) s = .next t ∧ t.reg d = s.reg x ∧ SameRegsBut d s t ∧
      t.pc.toNat = (s.pc.toNat + 3) % 65536 ∧ t.sr = s.sr ∧ t.sp = s.sp ∧ SameMem s t ∧ SameRun s t

/-- Derived from 60_exceptions section 1 and 40_execution_cycle section 3: a register byte of 8 to 255 raises AddressingFault, with no
data effect and PC past the whole instruction (the spec's decisions D5, D6 and D8, logs 7 and 8). -/
def Obligations.BadRegisterByteFaults : Prop :=
  (∀ (s : State) (b : Byte) (addr : Addr), 8 ≤ b.toNat →
    ∃ t : State, exec (.load b addr) s = .next t ∧ FaultTaken .addressingFault 4 0x08#8 s t) ∧
  (∀ (s : State) (b : Byte) (addr : Addr), 8 ≤ b.toNat →
    ∃ t : State, exec (.store addr b) s = .next t ∧ FaultTaken .addressingFault 4 0x09#8 s t) ∧
  (∀ (s : State) (bd bs : Byte), (8 ≤ bd.toNat ∨ 8 ≤ bs.toNat) →
    ∃ t : State, exec (.move bd bs) s = .next t ∧ FaultTaken .addressingFault 3 0x0A#8 s t)

/-- Derived from 42_data_movement (STORE, the round-trip property): a byte stored from one register and loaded by the next
instruction into any register is the byte stored, unless the store hits the bytes of that LOAD. -/
def Obligations.StoreThenLoadReturnsTheByte : Prop :=
  ∀ (s t : State) (b b' : Byte) (r r' : Reg) (addr : Addr) (rest rest' : List Byte),
    s.run = .running → b.toNat = r.val → b'.toNat = r'.val →
    decode s.window = .ok (.store addr b, rest) →
    decode [s.readMem (s.pc + 4#16), s.readMem (s.pc + 5#16), s.readMem (s.pc + 6#16), s.readMem (s.pc + 7#16)] =
      .ok (.load b' addr, rest') →
    addr ∉ [s.pc + 4#16, s.pc + 5#16, s.pc + 6#16, s.pc + 7#16] →
    step s = .next t → ∃ u : State, step t = .next u ∧ u.reg r' = s.reg r

/-! ## The control transfer instructions -/

/-- 43_control_transfer R120. -/
def Obligations.JmpSetsPc : Prop :=
  (∀ addr : Addr, encode (.jmp addr) = [0x0B#8, hiByte addr, loByte addr]) ∧
  ∀ (s : State) (addr : Addr), ∃ t : State, exec (.jmp addr) s = .next t ∧ t.pc = addr ∧
    SameRegs s t ∧ t.sr = s.sr ∧ t.sp = s.sp ∧ SameMem s t ∧ SameRun s t

/-- 43_control_transfer R121. -/
def Obligations.JmpzBranchesOnZero : Prop :=
  (∀ addr : Addr, encode (.jmpz addr) = [0x0C#8, hiByte addr, loByte addr]) ∧
  ∀ (s : State) (addr : Addr), ∃ t : State, exec (.jmpz addr) s = .next t ∧
    (s.zero = true → t.pc = addr) ∧ (s.zero = false → t.pc.toNat = (s.pc.toNat + 3) % 65536) ∧
    SameRegs s t ∧ t.sr = s.sr ∧ t.sp = s.sp ∧ SameMem s t ∧ SameRun s t

/-- 43_control_transfer R122: the bytes stored to are at `s - 1` and `s - 2` for the SP value `s` before. -/
def Obligations.CallPushesContinuation : Prop :=
  (∀ addr : Addr, encode (.call addr) = [0x0D#8, hiByte addr, loByte addr]) ∧
  ∀ (s : State) (addr : Addr), ∃ t : State, exec (.call addr) s = .next t ∧ t.pc = addr ∧ t.sp = s.sp - 2#16 ∧
    (t.readMem (s.sp - 1#16)).toNat = ((s.pc.toNat + 3) % 65536) % 256 ∧
    (t.readMem (s.sp - 2#16)).toNat = ((s.pc.toNat + 3) % 65536) / 256 ∧
    SameMemBut [s.sp - 1#16, s.sp - 2#16] s t ∧ SameRegs s t ∧ t.sr = s.sr ∧ SameRun s t

/-- 43_control_transfer R123, its round-trip property included: after a CALL, from any state in which SP and the two stack bytes are
as that CALL left them, RET goes to the continuation address with SP as before the CALL. -/
def Obligations.RetPopsReturnAddress : Prop :=
  encode .ret = [0x0E#8] ∧
  (∀ s : State, ∃ t : State, exec .ret s = .next t ∧
    t.pc.toNat = (s.readMem s.sp).toNat * 256 + (s.readMem (s.sp + 1#16)).toNat ∧ t.sp = s.sp + 2#16 ∧
    SameRegs s t ∧ t.sr = s.sr ∧ SameMem s t ∧ SameRun s t) ∧
  (∀ (s t t' : State) (addr : Addr), exec (.call addr) s = .next t → t'.sp = t.sp →
    t'.readMem t.sp = t.readMem t.sp → t'.readMem (t.sp + 1#16) = t.readMem (t.sp + 1#16) →
    ∃ u : State, exec .ret t' = .next u ∧ u.pc.toNat = (s.pc.toNat + 3) % 65536 ∧ u.sp = s.sp)

/-- Derived from 43_control_transfer (RET, the round-trip property, as two steps of the machine): a CALL to an address where a RET
lies, outside the two stack bytes, comes back to the byte after the CALL with SP and the registers as before. -/
def Obligations.CallThenRetReturns : Prop :=
  ∀ (s t : State) (addr : Addr) (rest : List Byte),
    s.run = .running → decode s.window = .ok (.call addr, rest) → s.readMem addr = 0x0E#8 →
    addr ∉ [s.sp - 1#16, s.sp - 2#16] → step s = .next t →
    ∃ u : State, step t = .next u ∧ u.pc.toNat = (s.pc.toNat + 3) % 65536 ∧ u.sp = s.sp ∧ SameRegs s u ∧ u.sr = s.sr

/-! ## The system instructions -/

/-- Derived from 44_system (HALT): after HALT no step is taken. The refusal of a step from the Halted state is the spec's decision D15, log 5, and
PC after HALT its decision D8, log 8. -/
def Obligations.HaltEndsTheRun : Prop :=
  encode .halt = [0x0F#8] ∧
  ∀ s : State, ∃ t : State, exec .halt s = .next t ∧ t.run = .halted ∧ t.pc.toNat = (s.pc.toNat + 1) % 65536 ∧
    SameRegs s t ∧ t.sr = s.sr ∧ t.sp = s.sp ∧ SameMem s t ∧ t.faultPc = s.faultPc ∧ t.faultOpcode = s.faultOpcode ∧
    step t = .refused .terminalState

/-- Derived from 44_system (SYSCALL) and 60_exceptions section 1: it raises NotImplemented, always, consuming its one byte (the spec's
decisions D6, D8 and D13, logs 8 and 15). -/
def Obligations.SyscallFaults : Prop :=
  encode .syscall = [0xA0#8] ∧
  ∀ s : State, ∃ t : State, exec .syscall s = .next t ∧ FaultTaken .notImplemented 1 0xA0#8 s t

/-! ## Rules about the whole machine -/

/-- Derived from 30_encoding section 4 and 60_exceptions section 1: an illegal opcode raises DecodeFault, consumes one byte and changes no
memory (the spec's decisions D6, D8 and D19, logs 8 and 18). -/
def Obligations.IllegalOpcodeFaults : Prop :=
  ∀ s : State, s.run = .running → IllegalOpcode s.nextOpcode →
    ∃ t : State, step s = .next t ∧ FaultTaken .decodeFault 1 s.nextOpcode s t

/-- Derived from 40_execution_cycle sections 1 and 6: a Running machine always takes a step; nothing the model holds back stops it. -/
def Obligations.RunningAlwaysSteps : Prop :=
  ∀ s : State, s.run = .running → ∃ t : State, step s = .next t

/-- Derived from 10_state section 5 (Halted and Faulted are terminal: the spec's decision D15, log 5). -/
def Obligations.TerminalStatesTakeNoStep : Prop :=
  ∀ s : State, s.Terminal → step s = .refused .terminalState

/-- Derived from 60_exceptions section 2 and 40_execution_cycle section 5: a step that faults has changed nothing but the run state, the fault
record and PC, which is past the bytes fetched (the spec's decisions D5, D6 and D8, logs 7 and 8). -/
def Obligations.FaultsArePrecise : Prop :=
  ∀ (s t : State) (k : Fault), step s = .next t → t.run = .faulted k →
    FaultTaken k (instrLength s.nextOpcode) s.nextOpcode s t

/-- Derived from 60_exceptions section 1: each fault kind arises exactly under its condition, and nothing else faults. That DIV by zero faults is
the spec's decision D4, log 6; that a register byte of 8 to 255 is checked in each of LOAD, STORE and MOVE its decision D5, log 7. -/
def Obligations.FaultKindsHaveTheirConditions : Prop :=
  ∀ s t : State, step s = .next t →
    (t.run = .faulted .decodeFault ↔ IllegalOpcode s.nextOpcode) ∧
    (t.run = .faulted .notImplemented ↔ s.nextOpcode = 0xA0#8) ∧
    (t.run = .faulted .divisionByZero ↔ s.nextOpcode = 0x03#8 ∧ s.reg 2 = 0#8) ∧
    (t.run = .faulted .addressingFault ↔
      (s.nextOpcode = 0x08#8 ∧ 8 ≤ (s.readMem (s.pc + 1#16)).toNat) ∨
      (s.nextOpcode = 0x09#8 ∧ 8 ≤ (s.readMem (s.pc + 3#16)).toNat) ∨
      (s.nextOpcode = 0x0A#8 ∧ (8 ≤ (s.readMem (s.pc + 1#16)).toNat ∨ 8 ≤ (s.readMem (s.pc + 2#16)).toNat)))

/-- Derived from 10_state section 5 and 44_system: the Halted state is entered by executing HALT and in no other way. -/
def Obligations.HaltedOnlyByHalt : Prop :=
  ∀ s t : State, step s = .next t → (t.run = .halted ↔ s.nextOpcode = 0x0F#8)

/-- Derived from 10_state section 4: SR is written by the eight ALU instructions only, bit 0 only, and tells whether the value written to R0
is zero; a faulting DIV leaves it (the spec's decisions D4 and D10, logs 6 and 10). -/
def Obligations.ZeroWrittenByAluOnly : Prop :=
  ∀ s t : State, step s = .next t →
    SameUpperSr s t ∧ (8 ≤ s.nextOpcode.toNat → t.sr = s.sr) ∧
    (s.nextOpcode.toNat < 8 → t.run = .running → (t.zero = true ↔ t.reg 0 = 0#8)) ∧
    (t.run ≠ .running → t.sr = s.sr)

/-- Derived from 20_memory section 2: STORE and CALL are the only instructions that write memory, STORE its one operand address, CALL the two
bytes under SP. -/
def Obligations.MemoryWrittenByStoreAndCallOnly : Prop :=
  ∀ s t : State, step s = .next t →
    (s.nextOpcode ≠ 0x09#8 → s.nextOpcode ≠ 0x0D#8 → SameMem s t) ∧
    (s.nextOpcode = 0x09#8 → SameMemBut [s.operandAddr] s t) ∧
    (s.nextOpcode = 0x0D#8 → SameMemBut [s.sp - 1#16, s.sp - 2#16] s t)

/-- Derived from 10_state section 3 (wrap: the spec's decision D9, log 9): SP moves down two with CALL, up two with RET, and otherwise not
at all. -/
def Obligations.StackPointerMovedByCallAndRetOnly : Prop :=
  ∀ s t : State, step s = .next t →
    (s.nextOpcode = 0x0D#8 → t.sp = s.sp - 2#16) ∧ (s.nextOpcode = 0x0E#8 → t.sp = s.sp + 2#16) ∧
    (s.nextOpcode ≠ 0x0D#8 → s.nextOpcode ≠ 0x0E#8 → t.sp = s.sp)

/-- Derived from 10_state section 1: which instructions write which general register. -/
def Obligations.RegistersWrittenAsTabled : Prop :=
  ∀ s t : State, step s = .next t →
    (s.nextOpcode.toNat < 8 → SameRegsBut 0 s t) ∧
    (s.nextOpcode = 0x08#8 ∨ s.nextOpcode = 0x0A#8 → ∀ r : Reg, r.val ≠ (s.readMem (s.pc + 1#16)).toNat → t.reg r = s.reg r) ∧
    (s.nextOpcode = 0x09#8 ∨ 0x0B ≤ s.nextOpcode.toNat → SameRegs s t)

/-- Derived from 10_state section 2, the table of PC after a step (the faulting rows are the spec's decisions D5 and D8, logs 7 and 8). -/
def Obligations.PcAfterStepAsTabled : Prop :=
  ∀ s t : State, step s = .next t →
    (s.nextOpcode.toNat < 8 ∨ 0x0F ≤ s.nextOpcode.toNat → t.pc.toNat = (s.pc.toNat + 1) % 65536) ∧
    (s.nextOpcode = 0x08#8 ∨ s.nextOpcode = 0x09#8 → t.pc.toNat = (s.pc.toNat + 4) % 65536) ∧
    (s.nextOpcode = 0x0A#8 → t.pc.toNat = (s.pc.toNat + 3) % 65536) ∧
    (s.nextOpcode = 0x0B#8 ∨ s.nextOpcode = 0x0D#8 → t.pc = s.operandAddr) ∧
    (s.nextOpcode = 0x0C#8 → if s.zero then t.pc = s.operandAddr else t.pc.toNat = (s.pc.toNat + 3) % 65536) ∧
    (s.nextOpcode = 0x0E#8 → t.pc = beWord (s.readMem s.sp) (s.readMem (s.sp + 1#16)))

/-- Derived from 20_memory section 5 (store-to-fetch visibility is the spec's derivation, decision D17, log 16): a byte stored over the next
opcode is the opcode the next step fetches, so a stored HALT halts. -/
def Obligations.StoreSeenByTheNextFetch : Prop :=
  ∀ (s t : State) (b : Byte) (r : Reg) (rest : List Byte),
    s.run = .running → b.toNat = r.val → decode s.window = .ok (.store (s.pc + 4#16) b, rest) → step s = .next t →
    t.nextOpcode = s.reg r ∧
    (s.reg r = 0x0F#8 → ∃ u : State, step t = .next u ∧ u.run = .halted)

/-- Derived from 10_state sections 4 and 5: no instruction reads the fault record or SR bits 7:1. Two Running states that differ there only
step to states that differ at most there. -/
def Obligations.FaultRecordAndUpperSrUnobserved : Prop :=
  ∀ (s t : State) (p : Addr) (op sr : Byte), s.run = .running → sr.getLsbD 0 = s.zero → step s = .next t →
    ∃ t' : State, step { s with faultPc := p, faultOpcode := op, sr := sr } = .next t' ∧
      t'.regs = t.regs ∧ t'.pc = t.pc ∧ t'.sp = t.sp ∧ t'.zero = t.zero ∧ t'.run = t.run ∧ t'.mem = t.mem

/-- Derived from 30_encoding section 4 and 60_exceptions section 1: an instruction with legal operand values, SYSCALL and a DIV by zero
apart, executes from a state that has not faulted to one that has not faulted. -/
def Obligations.WellFormedInstrDoesNotFault : Prop :=
  ∀ (i : Instr) (s : State), i.wellFormed = true → i ≠ .syscall → (i = .div → s.reg 2 ≠ 0#8) → s.run = .running →
    ∃ t : State, exec i s = .next t ∧ (t.run = .running ∨ (i = .halt ∧ t.EndedWell))

/-- Derived from 40_execution_cycle section 1, for the way a program comes to be in memory (log 2): an instruction placed at PC in the opcode
table's numbering is what the very next step runs. -/
def Obligations.PlacedInstructionRunsNext : Prop :=
  ∀ (s : State) (nbits w : Nat) (i : Instr), decodeTableWord nbits w = some i →
    step (s.withFetchWord nbits w) = exec i (s.withFetchWord nbits w)

/-- Derived from 60_exceptions sections 1 and 2 (the record's content and the codes are the spec's decisions D6 and D7, logs 8 and 22): after a
step the host sees nothing while the machine runs, a halt without a record, and a fault with its kind, the code of that kind, the address of
the faulting instruction and its opcode byte. The codes are those of R140's table, kind by kind. -/
def Obligations.HostSeesTheTerminalCondition : Prop :=
  ∀ s t : State, step s = .next t →
    (t.report = none ↔ t.run = .running) ∧
    (t.run = .halted → t.report = some (.halted, none)) ∧
    (∀ k, t.run = .faulted k → t.report = some (.faulted k, some (s.pc, s.nextOpcode))) ∧
    (t.run = .running → faultCode t.run = 0) ∧ (t.run = .halted → faultCode t.run = 0) ∧
    (t.run = .faulted .decodeFault → faultCode t.run = 1) ∧ (t.run = .faulted .notImplemented → faultCode t.run = 2) ∧
    (t.run = .faulted .divisionByZero → faultCode t.run = 3) ∧ (t.run = .faulted .addressingFault → faultCode t.run = 4)

/-- Derived from 40_execution_cycle section 1 (the run loop) and the sections StepKeepsTheInvariant rests on, with the same log entries: every state
any run from any image passes through has the invariant. -/
def Obligations.EveryRunFromAnImageKeepsTheInvariant : Prop :=
  ∀ (image : List Byte) (s : State) (n : Nat) (t : State),
    boot image = .next s → Host.Core.run Sys2Proof.core n s = .next t → t.Inv

/-- Derived from 42_data_movement and 43_control_transfer, whose pseudocode fetches each operand with FetchByte and FetchWord in encoding order:
what the decoder reads from the fetched bytes is what those primitives give, one after another from the opcode byte on. -/
def Obligations.OperandsAreFetchedInEncodingOrder : Prop :=
  ∀ s : State,
    (s.nextOpcode = 0x08#8 → decodeInstr s.fetchInstrBytes =
      some (.load s.fetchByte.2.fetchByte.1 s.fetchByte.2.fetchByte.2.fetchWord.1)) ∧
    (s.nextOpcode = 0x09#8 → decodeInstr s.fetchInstrBytes =
      some (.store s.fetchByte.2.fetchWord.1 s.fetchByte.2.fetchWord.2.fetchByte.1)) ∧
    (s.nextOpcode = 0x0A#8 → decodeInstr s.fetchInstrBytes =
      some (.move s.fetchByte.2.fetchByte.1 s.fetchByte.2.fetchByte.2.fetchByte.1)) ∧
    (s.nextOpcode = 0x0B#8 → decodeInstr s.fetchInstrBytes = some (.jmp s.fetchByte.2.fetchWord.1)) ∧
    (s.nextOpcode = 0x0C#8 → decodeInstr s.fetchInstrBytes = some (.jmpz s.fetchByte.2.fetchWord.1)) ∧
    (s.nextOpcode = 0x0D#8 → decodeInstr s.fetchInstrBytes = some (.call s.fetchByte.2.fetchWord.1))
end

