-- ==== Sys2Proof/Laws/Decode.lean ====
section
/-! SUPPORT. The byte-order helpers and the decoder. -/

namespace Sys2Proof

@[simp] theorem hiByte_beWord (hi lo : Byte) : hiByte (beWord hi lo) = hi := by
  apply BitVec.eq_of_toNat_eq
  have h1 := hi.isLt
  have h2 := lo.isLt
  simp only [hiByte, beWord, BitVec.extractLsb'_toNat, BitVec.toNat_append, Nat.shiftRight_eq_div_pow,
    Nat.shiftLeft_eq, ← Nat.two_pow_add_eq_or_of_lt h2, Nat.mul_comm hi.toNat]
  omega

@[simp] theorem loByte_beWord (hi lo : Byte) : loByte (beWord hi lo) = lo := by
  apply BitVec.eq_of_toNat_eq
  have h1 := hi.isLt
  have h2 := lo.isLt
  simp only [loByte, beWord, BitVec.extractLsb'_toNat, BitVec.toNat_append, Nat.shiftRight_eq_div_pow,
    Nat.shiftLeft_eq, ← Nat.two_pow_add_eq_or_of_lt h2, Nat.mul_comm hi.toNat]
  omega

/-- The assembled word as a number (R52). -/
theorem beWord_toNat (hi lo : Byte) : (beWord hi lo).toNat = hi.toNat * 256 + lo.toNat := by
  have h2 := lo.isLt
  simp only [beWord, BitVec.toNat_append, Nat.shiftLeft_eq, Nat.mul_comm hi.toNat, ← Nat.two_pow_add_eq_or_of_lt h2]

theorem hiByte_toNat (a : Addr) : (hiByte a).toNat = a.toNat / 256 := by
  have h := a.isLt
  simp only [hiByte, BitVec.extractLsb'_toNat, Nat.shiftRight_eq_div_pow]
  omega

theorem loByte_toNat (a : Addr) : (loByte a).toNat = a.toNat % 256 := by
  simp [loByte, BitVec.extractLsb'_toNat]

/-- Splitting an address into bytes and assembling them gives the address back (R52). -/
theorem beWord_hiByte_loByte (a : Addr) : beWord (hiByte a) (loByte a) = a := by
  apply BitVec.eq_of_toNat_eq
  rw [beWord_toNat, hiByte_toNat, loByte_toNat]
  omega

/-- The row of an instruction's own opcode reads that instruction's own operand bytes. -/
theorem opcodeRow_opcode_isSome (i : Instr) : (opcodeRow i.opcode).isSome = true := by
  cases i <;> rfl

/-- A byte is in no row exactly when it is one of the 239 illegal opcodes (R55). -/
theorem opcodeRow_isNone_iff (op : Byte) : (opcodeRow op).isNone = true ↔ Machine.IllegalOpcode op := by
  unfold Machine.IllegalOpcode
  revert op
  decide

/-- What the four bytes at PC must be for the decoder to read `i` from them (R51, R54). -/
def DecodedFrom (w0 w1 w2 w3 : Byte) : Instr → Prop
  | .load r addr => w0 = 0x08#8 ∧ r = w1 ∧ addr = beWord w2 w3
  | .store addr r => w0 = 0x09#8 ∧ addr = beWord w1 w2 ∧ r = w3
  | .move rd rs => w0 = 0x0A#8 ∧ rd = w1 ∧ rs = w2
  | .jmp addr => w0 = 0x0B#8 ∧ addr = beWord w1 w2
  | .jmpz addr => w0 = 0x0C#8 ∧ addr = beWord w1 w2
  | .call addr => w0 = 0x0D#8 ∧ addr = beWord w1 w2
  | i => w0 = i.opcode

/-- All the decoder can do with four bytes: the bytes of one instruction, or an illegal opcode. -/
theorem decodeInstr_window_cases (w0 w1 w2 w3 : Byte) :
    (∃ i, decodeInstr [w0, w1, w2, w3] = some i ∧ DecodedFrom w0 w1 w2 w3 i) ∨
    (decodeInstr [w0, w1, w2, w3] = none ∧ opcodeRow w0 = none) := by
  cases h : opcodeRow w0 with
  | none => exact .inr ⟨by simp [decodeInstr, decode, h], rfl⟩
  | some sh =>
    refine .inl ?_
    unfold opcodeRow at h
    split at h <;> first | (cases h; exact ⟨_, rfl, by simp [DecodedFrom, Instr.opcode]⟩) | simp at h

end Sys2Proof
end

