-- ==== Sys2Proof/Laws/State.lean ====
section
/-! SUPPORT. One lemma per field per update of State, true by definition, so that no later proof unfolds an update. -/

namespace Sys2Proof.Machine

variable (s : State)

/-! ### writeMem -/

@[simp] theorem writeMem_regs (a : Addr) (v : Byte) : (s.writeMem a v).regs = s.regs := rfl
@[simp] theorem writeMem_pc (a : Addr) (v : Byte) : (s.writeMem a v).pc = s.pc := rfl
@[simp] theorem writeMem_sp (a : Addr) (v : Byte) : (s.writeMem a v).sp = s.sp := rfl
@[simp] theorem writeMem_sr (a : Addr) (v : Byte) : (s.writeMem a v).sr = s.sr := rfl
@[simp] theorem writeMem_run (a : Addr) (v : Byte) : (s.writeMem a v).run = s.run := rfl
@[simp] theorem writeMem_faultPc (a : Addr) (v : Byte) : (s.writeMem a v).faultPc = s.faultPc := rfl
@[simp] theorem writeMem_faultOpcode (a : Addr) (v : Byte) : (s.writeMem a v).faultOpcode = s.faultOpcode := rfl
@[simp] theorem writeMem_mem (a : Addr) (v : Byte) : (s.writeMem a v).mem = Mem.write s.mem a.toNat v := rfl

/-! ### setReg -/

@[simp] theorem setReg_regs (r : Reg) (v : Byte) : (s.setReg r v).regs = s.regs.set r v := rfl
@[simp] theorem setReg_pc (r : Reg) (v : Byte) : (s.setReg r v).pc = s.pc := rfl
@[simp] theorem setReg_sp (r : Reg) (v : Byte) : (s.setReg r v).sp = s.sp := rfl
@[simp] theorem setReg_sr (r : Reg) (v : Byte) : (s.setReg r v).sr = s.sr := rfl
@[simp] theorem setReg_run (r : Reg) (v : Byte) : (s.setReg r v).run = s.run := rfl
@[simp] theorem setReg_faultPc (r : Reg) (v : Byte) : (s.setReg r v).faultPc = s.faultPc := rfl
@[simp] theorem setReg_faultOpcode (r : Reg) (v : Byte) : (s.setReg r v).faultOpcode = s.faultOpcode := rfl
@[simp] theorem setReg_mem (r : Reg) (v : Byte) : (s.setReg r v).mem = s.mem := rfl

/-! ### setPc -/

@[simp] theorem setPc_regs (p : Addr) : (s.setPc p).regs = s.regs := rfl
@[simp] theorem setPc_pc (p : Addr) : (s.setPc p).pc = p := rfl
@[simp] theorem setPc_sp (p : Addr) : (s.setPc p).sp = s.sp := rfl
@[simp] theorem setPc_sr (p : Addr) : (s.setPc p).sr = s.sr := rfl
@[simp] theorem setPc_run (p : Addr) : (s.setPc p).run = s.run := rfl
@[simp] theorem setPc_faultPc (p : Addr) : (s.setPc p).faultPc = s.faultPc := rfl
@[simp] theorem setPc_faultOpcode (p : Addr) : (s.setPc p).faultOpcode = s.faultOpcode := rfl
@[simp] theorem setPc_mem (p : Addr) : (s.setPc p).mem = s.mem := rfl

/-! ### setSp -/

@[simp] theorem setSp_regs (p : Addr) : (s.setSp p).regs = s.regs := rfl
@[simp] theorem setSp_pc (p : Addr) : (s.setSp p).pc = s.pc := rfl
@[simp] theorem setSp_sp (p : Addr) : (s.setSp p).sp = p := rfl
@[simp] theorem setSp_sr (p : Addr) : (s.setSp p).sr = s.sr := rfl
@[simp] theorem setSp_run (p : Addr) : (s.setSp p).run = s.run := rfl
@[simp] theorem setSp_faultPc (p : Addr) : (s.setSp p).faultPc = s.faultPc := rfl
@[simp] theorem setSp_faultOpcode (p : Addr) : (s.setSp p).faultOpcode = s.faultOpcode := rfl
@[simp] theorem setSp_mem (p : Addr) : (s.setSp p).mem = s.mem := rfl

/-! ### setRun -/

@[simp] theorem setRun_regs (x : RunState) : (s.setRun x).regs = s.regs := rfl
@[simp] theorem setRun_pc (x : RunState) : (s.setRun x).pc = s.pc := rfl
@[simp] theorem setRun_sp (x : RunState) : (s.setRun x).sp = s.sp := rfl
@[simp] theorem setRun_sr (x : RunState) : (s.setRun x).sr = s.sr := rfl
@[simp] theorem setRun_run (x : RunState) : (s.setRun x).run = x := rfl
@[simp] theorem setRun_faultPc (x : RunState) : (s.setRun x).faultPc = s.faultPc := rfl
@[simp] theorem setRun_faultOpcode (x : RunState) : (s.setRun x).faultOpcode = s.faultOpcode := rfl
@[simp] theorem setRun_mem (x : RunState) : (s.setRun x).mem = s.mem := rfl

/-! ### advance -/

@[simp] theorem advance_regs (n : Nat) : (s.advance n).regs = s.regs := rfl
@[simp] theorem advance_pc (n : Nat) : (s.advance n).pc = s.pc + BitVec.ofNat 16 n := rfl
@[simp] theorem advance_sp (n : Nat) : (s.advance n).sp = s.sp := rfl
@[simp] theorem advance_sr (n : Nat) : (s.advance n).sr = s.sr := rfl
@[simp] theorem advance_run (n : Nat) : (s.advance n).run = s.run := rfl
@[simp] theorem advance_faultPc (n : Nat) : (s.advance n).faultPc = s.faultPc := rfl
@[simp] theorem advance_faultOpcode (n : Nat) : (s.advance n).faultOpcode = s.faultOpcode := rfl
@[simp] theorem advance_mem (n : Nat) : (s.advance n).mem = s.mem := rfl

/-! ### raise -/

@[simp] theorem raise_regs (k : Fault) (p : Addr) (op : Byte) : (s.raise k p op).regs = s.regs := rfl
@[simp] theorem raise_pc (k : Fault) (p : Addr) (op : Byte) : (s.raise k p op).pc = s.pc := rfl
@[simp] theorem raise_sp (k : Fault) (p : Addr) (op : Byte) : (s.raise k p op).sp = s.sp := rfl
@[simp] theorem raise_sr (k : Fault) (p : Addr) (op : Byte) : (s.raise k p op).sr = s.sr := rfl
@[simp] theorem raise_run (k : Fault) (p : Addr) (op : Byte) : (s.raise k p op).run = .faulted k := rfl
@[simp] theorem raise_faultPc (k : Fault) (p : Addr) (op : Byte) : (s.raise k p op).faultPc = p := rfl
@[simp] theorem raise_faultOpcode (k : Fault) (p : Addr) (op : Byte) : (s.raise k p op).faultOpcode = op := rfl
@[simp] theorem raise_mem (k : Fault) (p : Addr) (op : Byte) : (s.raise k p op).mem = s.mem := rfl

/-! ### setZ -/

@[simp] theorem setZ_regs (v : Byte) : (s.setZ v).regs = s.regs := rfl
@[simp] theorem setZ_pc (v : Byte) : (s.setZ v).pc = s.pc := rfl
@[simp] theorem setZ_sp (v : Byte) : (s.setZ v).sp = s.sp := rfl
@[simp] theorem setZ_sr (v : Byte) : (s.setZ v).sr = zeroInto s.sr v := rfl
@[simp] theorem setZ_run (v : Byte) : (s.setZ v).run = s.run := rfl
@[simp] theorem setZ_faultPc (v : Byte) : (s.setZ v).faultPc = s.faultPc := rfl
@[simp] theorem setZ_faultOpcode (v : Byte) : (s.setZ v).faultOpcode = s.faultOpcode := rfl
@[simp] theorem setZ_mem (v : Byte) : (s.setZ v).mem = s.mem := rfl

/-! ### push -/

@[simp] theorem push_regs (v : Byte) : (s.push v).regs = s.regs := rfl
@[simp] theorem push_pc (v : Byte) : (s.push v).pc = s.pc := rfl
@[simp] theorem push_sp (v : Byte) : (s.push v).sp = s.sp - 1#16 := rfl
@[simp] theorem push_sr (v : Byte) : (s.push v).sr = s.sr := rfl
@[simp] theorem push_run (v : Byte) : (s.push v).run = s.run := rfl
@[simp] theorem push_faultPc (v : Byte) : (s.push v).faultPc = s.faultPc := rfl
@[simp] theorem push_faultOpcode (v : Byte) : (s.push v).faultOpcode = s.faultOpcode := rfl
@[simp] theorem push_mem (v : Byte) : (s.push v).mem = Mem.write s.mem (s.sp - 1#16).toNat v := rfl

/-! ### Reads through updates that do not touch what is read -/

@[simp] theorem reg_writeMem (a : Addr) (v : Byte) (q : Reg) : (s.writeMem a v).reg q = s.reg q := rfl
@[simp] theorem zero_writeMem (a : Addr) (v : Byte) : (s.writeMem a v).zero = s.zero := rfl
@[simp] theorem readMem_setReg (r : Reg) (v : Byte) (q : Addr) : (s.setReg r v).readMem q = s.readMem q := rfl
@[simp] theorem zero_setReg (r : Reg) (v : Byte) : (s.setReg r v).zero = s.zero := rfl
@[simp] theorem reg_setPc (p : Addr) (q : Reg) : (s.setPc p).reg q = s.reg q := rfl
@[simp] theorem readMem_setPc (p : Addr) (q : Addr) : (s.setPc p).readMem q = s.readMem q := rfl
@[simp] theorem zero_setPc (p : Addr) : (s.setPc p).zero = s.zero := rfl
@[simp] theorem reg_setSp (p : Addr) (q : Reg) : (s.setSp p).reg q = s.reg q := rfl
@[simp] theorem readMem_setSp (p : Addr) (q : Addr) : (s.setSp p).readMem q = s.readMem q := rfl
@[simp] theorem zero_setSp (p : Addr) : (s.setSp p).zero = s.zero := rfl
@[simp] theorem reg_setRun (x : RunState) (q : Reg) : (s.setRun x).reg q = s.reg q := rfl
@[simp] theorem readMem_setRun (x : RunState) (q : Addr) : (s.setRun x).readMem q = s.readMem q := rfl
@[simp] theorem zero_setRun (x : RunState) : (s.setRun x).zero = s.zero := rfl
@[simp] theorem reg_advance (n : Nat) (q : Reg) : (s.advance n).reg q = s.reg q := rfl
@[simp] theorem readMem_advance (n : Nat) (q : Addr) : (s.advance n).readMem q = s.readMem q := rfl
@[simp] theorem zero_advance (n : Nat) : (s.advance n).zero = s.zero := rfl
@[simp] theorem reg_raise (k : Fault) (p : Addr) (op : Byte) (q : Reg) : (s.raise k p op).reg q = s.reg q := rfl
@[simp] theorem readMem_raise (k : Fault) (p : Addr) (op : Byte) (q : Addr) : (s.raise k p op).readMem q = s.readMem q := rfl
@[simp] theorem zero_raise (k : Fault) (p : Addr) (op : Byte) : (s.raise k p op).zero = s.zero := rfl
@[simp] theorem reg_setZ (v : Byte) (q : Reg) : (s.setZ v).reg q = s.reg q := rfl
@[simp] theorem readMem_setZ (v : Byte) (q : Addr) : (s.setZ v).readMem q = s.readMem q := rfl
@[simp] theorem reg_push (v : Byte) (q : Reg) : (s.push v).reg q = s.reg q := rfl
@[simp] theorem zero_push (v : Byte) : (s.push v).zero = s.zero := rfl

/-! ### The fetched byte and the popped byte -/

@[simp] theorem fetchByte_value : s.fetchByte.1 = s.readMem s.pc := rfl
@[simp] theorem fetchByte_state : s.fetchByte.2 = s.advance 1 := rfl
@[simp] theorem pop_value : s.pop.1 = s.readMem s.sp := rfl
@[simp] theorem pop_state : s.pop.2 = s.setSp (s.sp + 1#16) := rfl

/-! ### What the host sees after a fault -/

@[simp] theorem report_raise (k : Fault) (p : Addr) (op : Byte) : (s.raise k p op).report = some (.faulted k, some (p, op)) := rfl

/-- The host sees a terminal condition exactly when the run is over (R152). -/
theorem report_eq_none_iff : s.report = none ↔ s.run = .running := by
  unfold State.report
  split <;> simp_all

end Sys2Proof.Machine
end

