-- ==== Sys2Proof/Laws/Fetch.lean ====
section
/-! SUPPORT. What fetching an instruction's bytes reads, and what the step does with them. -/

namespace Sys2Proof.Machine

theorem advance_advance (s : State) (m n : Nat) : (s.advance m).advance n = s.advance (m + n) := by
  simp only [State.advance, State.setPc, BitVec.add_assoc, BitVec.ofNat_add]

/-- All `n` fetches do to the state: PC moves on `n` bytes (R71). -/
theorem fetchBytes_state (n : Nat) (s : State) : (State.fetchBytes n s).2 = s.advance n := by
  induction n generalizing s with
  | zero => simp [State.fetchBytes, State.advance, State.setPc]
  | succ n ih =>
    show (State.fetchBytes n s.fetchByte.2).2 = _
    rw [ih, fetchByte_state, advance_advance, Nat.add_comm 1 n]

/-- All FetchWord does (R72): the two bytes at PC as one word, and PC two further. -/
@[simp] theorem fetchWord_value (s : State) :
    s.fetchWord.1 = beWord (s.readMem s.pc) (s.readMem (s.pc + 1#16)) := rfl

@[simp] theorem fetchWord_state (s : State) : s.fetchWord.2 = s.advance 2 := advance_advance s 1 1

/-- The bytes of `n` fetches, as one list (R71). -/
theorem fetchBytes_bytes_succ (n : Nat) (s : State) :
    (State.fetchBytes (n + 1) s).1 = s.readMem s.pc :: (State.fetchBytes n (s.advance 1)).1 := rfl

/-- The decoder reads the same instruction from the bytes the step fetches as from the whole window at PC (R59). -/
theorem decodeInstr_fetchInstrBytes (s : State) :
    decodeInstr s.fetchInstrBytes = decodeInstr s.window := by
  have e1 : (s.advance 1).readMem (s.advance 1).pc = s.readMem (s.pc + 1#16) := rfl
  have e2 : ((s.advance 1).advance 1).readMem ((s.advance 1).advance 1).pc = s.readMem (s.pc + 2#16) := by
    rw [advance_advance]; rfl
  have e3 : (((s.advance 1).advance 1).advance 1).readMem (((s.advance 1).advance 1).advance 1).pc =
      s.readMem (s.pc + 3#16) := by
    rw [advance_advance, advance_advance]; rfl
  have e0 (t : State) : (State.fetchBytes 0 t).1 = [] := rfl
  unfold State.fetchInstrBytes State.window instrLength
  rw [fetchByte_value]
  cases h : opcodeRow (s.readMem s.pc) with
  | none => simp [fetchBytes_bytes_succ, e0, decodeInstr, decode, h]
  | some sh =>
    cases sh <;>
      simp only [Shape.length, fetchBytes_bytes_succ, e0, e1, e2, e3, decodeInstr, decode, h, Shape.read]

/-- A Running machine's step, with the window in place of the fetched bytes (R70). -/
theorem step_running {s : State} (h : s.run = .running) :
    step s = (match decodeInstr s.window with
      | some i => exec i s
      | none => .next (s.decodeFault s.nextOpcode)) := by
  simp only [step, h, decodeInstr_fetchInstrBytes]
  rfl

/-- All a step that answers a next state can be: the machine was Running, and either the bytes at PC are an instruction's and
it executed, or the opcode is illegal and DecodeFault was taken. -/
theorem step_cases {s t : State} (h : step s = .next t) :
    s.run = .running ∧
    ((∃ i, DecodedFrom s.nextOpcode (s.readMem (s.pc + 1#16)) (s.readMem (s.pc + 2#16)) (s.readMem (s.pc + 3#16)) i ∧
        exec i s = .next t) ∨
     (opcodeRow s.nextOpcode = none ∧ t = s.decodeFault s.nextOpcode)) := by
  cases hr : s.run with
  | running =>
    refine ⟨rfl, ?_⟩
    rw [step_running hr] at h
    rcases decodeInstr_window_cases s.nextOpcode (s.readMem (s.pc + 1#16)) (s.readMem (s.pc + 2#16))
      (s.readMem (s.pc + 3#16)) with ⟨i, hd, hi⟩ | ⟨hd, ho⟩
    · change decodeInstr s.window = _ at hd
      rw [hd] at h
      exact .inl ⟨i, hi, h⟩
    · change decodeInstr s.window = _ at hd
      rw [hd] at h
      injection h with h
      exact .inr ⟨ho, h.symm⟩
  | halted => simp [step, hr] at h
  | faulted k => simp [step, hr] at h

end Sys2Proof.Machine
end

