-- ==== Sys2Proof/Laws/Memory.lean ====
section
/-! SUPPORT. The memory list: reads after writes, and the canonical form that every operation keeps. -/

namespace Sys2Proof.Machine

/-! ## Reading back -/

theorem read_insert (m : Mem) (a c : Nat) (v : Byte) :
    Mem.read (Mem.insert m a v) c = if a = c then v else Mem.read m c := by
  induction m with
  | nil => simp [Mem.insert, Mem.read]
  | cons e m ih =>
    obtain ⟨k, b⟩ := e
    simp only [Mem.insert]
    split
    · simp only [Mem.read, ih]; split <;> split <;> first | rfl | omega
    · split
      · subst k; simp only [Mem.read]; split <;> rfl
      · simp only [Mem.read]

theorem read_erase (m : Mem) (a c : Nat) :
    Mem.read (Mem.erase m a) c = if a = c then Config.unlistedByte else Mem.read m c := by
  induction m with
  | nil => simp [Mem.erase, Mem.read]
  | cons e m ih =>
    obtain ⟨k, b⟩ := e
    simp only [Mem.erase, List.filter_cons] at ih ⊢
    split
    · rename_i h
      have hk : k ≠ a := by simpa using h
      simp only [Mem.read, ih]; split <;> split <;> first | rfl | omega
    · rename_i h
      have hk : k = a := by simpa using h
      simp only [ih, Mem.read, hk]; split <;> rfl

/-- All a write does to reads: the byte written at its address, the old byte everywhere else. -/
theorem read_write (m : Mem) (a c : Nat) (v : Byte) :
    Mem.read (Mem.write m a v) c = if a = c then v else Mem.read m c := by
  unfold Mem.write
  split
  · rename_i h; rw [read_erase, h]
  · exact read_insert m a c v

/-- All a byte write does to reads through a state (R31, R32). -/
theorem readMem_writeMem (s : State) (a c : Addr) (v : Byte) :
    (s.writeMem a v).readMem c = if a = c then v else s.readMem c := by
  simp only [State.readMem, writeMem_mem, read_write, BitVec.toNat_inj]

/-- All a push does to reads. -/
theorem readMem_push (s : State) (v : Byte) (c : Addr) :
    (s.push v).readMem c = if s.sp - 1#16 = c then v else s.readMem c := by
  simpa [State.push] using readMem_writeMem (s.setSp (s.sp - 1#16)) (s.sp - 1#16) c v

/-! ## The canonical form -/

theorem wfFrom_mono (m : Mem) {lo lo' : Nat} (h : Mem.wfFrom lo m = true) (hl : lo' ≤ lo) :
    Mem.wfFrom lo' m = true := by
  cases m with
  | nil => rfl
  | cons e m =>
    simp only [Mem.wfFrom, Bool.and_eq_true, decide_eq_true_eq] at h ⊢
    exact ⟨⟨⟨by omega, h.1.1.2⟩, h.1.2⟩, h.2⟩

theorem wfFrom_insert (m : Mem) {lo a : Nat} {v : Byte} (h : Mem.wfFrom lo m = true) (hl : lo ≤ a)
    (ha : a < Config.memSize) (hv : v ≠ Config.unlistedByte) : Mem.wfFrom lo (Mem.insert m a v) = true := by
  induction m generalizing lo with
  | nil => simp [Mem.insert, Mem.wfFrom, hl, ha, hv]
  | cons e m ih =>
    obtain ⟨k, b⟩ := e
    simp only [Mem.wfFrom, Bool.and_eq_true, decide_eq_true_eq] at h
    simp only [Mem.insert]
    split
    · rename_i hk
      simp only [Mem.wfFrom, Bool.and_eq_true, decide_eq_true_eq]
      exact ⟨h.1, ih h.2 (by omega)⟩
    · split
      · subst k
        simp only [Mem.wfFrom, Bool.and_eq_true, decide_eq_true_eq]
        exact ⟨⟨h.1.1, hv⟩, h.2⟩
      · simp only [Mem.wfFrom, Bool.and_eq_true, decide_eq_true_eq]
        exact ⟨⟨⟨hl, ha⟩, hv⟩, ⟨⟨⟨by omega, h.1.1.2⟩, h.1.2⟩, h.2⟩⟩

theorem wfFrom_erase (m : Mem) {lo : Nat} (a : Nat) (h : Mem.wfFrom lo m = true) :
    Mem.wfFrom lo (Mem.erase m a) = true := by
  induction m generalizing lo with
  | nil => rfl
  | cons e m ih =>
    obtain ⟨k, b⟩ := e
    simp only [Mem.wfFrom, Bool.and_eq_true, decide_eq_true_eq] at h
    simp only [Mem.erase, List.filter_cons] at ih ⊢
    split
    · simp only [Mem.wfFrom, Bool.and_eq_true, decide_eq_true_eq]
      exact ⟨h.1, ih h.2⟩
    · exact wfFrom_mono _ (ih h.2) (by omega)

/-- A write at an address of the address space keeps the canonical form. -/
theorem wf_write {m : Mem} {a : Nat} (v : Byte) (h : Mem.wf m = true) (ha : a < Config.memSize) :
    Mem.wf (Mem.write m a v) = true := by
  unfold Mem.write
  split
  · exact wfFrom_erase m a h
  · rename_i hv; exact wfFrom_insert m h (Nat.zero_le a) ha hv

/-- A byte write through a state keeps the canonical form. -/
theorem wf_writeMem {s : State} (a : Addr) (v : Byte) (h : Mem.wf s.mem = true) :
    Mem.wf (s.writeMem a v).mem = true := wf_write v h a.isLt

/-- A push keeps the canonical form. -/
theorem wf_push {s : State} (v : Byte) (h : Mem.wf s.mem = true) : Mem.wf (s.push v).mem = true :=
  wf_write v h (s.sp - 1#16).isLt

/-- Placing bytes keeps the canonical form. -/
theorem wf_placeBytes (bs : List Byte) (a : Addr) {s : State} (h : Mem.wf s.mem = true) :
    Mem.wf (State.placeBytes bs a s).mem = true := by
  induction bs generalizing a s with
  | nil => exact h
  | cons b bs ih => exact ih _ (wf_writeMem a b h)

/-- The reset memory is in canonical form. -/
theorem wf_reset : Mem.wf State.reset.mem = true := rfl

/-! ## Laying out an image -/

theorem wfFrom_ofBytes (bs : List Byte) {a lo : Nat} (hl : lo ≤ a) (h : a + bs.length ≤ Config.memSize) :
    Mem.wfFrom lo (Mem.ofBytes a bs) = true := by
  induction bs generalizing a lo with
  | nil => rfl
  | cons b bs ih =>
    simp only [List.length_cons] at h
    simp only [Mem.ofBytes]
    split
    · exact ih (by omega) (by omega)
    · rename_i hb
      simp only [Mem.wfFrom, Bool.and_eq_true, decide_eq_true_eq]
      exact ⟨⟨⟨hl, by omega⟩, hb⟩, ih (Nat.le_refl _) (by omega)⟩

/-- Bytes that need no entry lay out as nothing. -/
theorem ofBytes_replicate_unlisted (n a : Nat) : Mem.ofBytes a (List.replicate n Config.unlistedByte) = [] := by
  induction n generalizing a with
  | zero => rfl
  | succ n ih => simp only [List.replicate_succ, Mem.ofBytes, if_true, ih]

theorem read_ofBytes_below (bs : List Byte) {a c : Nat} (h : c < a) :
    Mem.read (Mem.ofBytes a bs) c = Config.unlistedByte := by
  induction bs generalizing a with
  | nil => rfl
  | cons b bs ih =>
    simp only [Mem.ofBytes]
    split
    · exact ih (by omega)
    · simp only [Mem.read]; rw [if_neg (by omega), ih (by omega)]

/-- All a layout does to reads: byte `j` of the list is read at `a + j`. -/
theorem read_ofBytes (bs : List Byte) (a j : Nat) (h : j < bs.length) :
    Mem.read (Mem.ofBytes a bs) (a + j) = bs[j] := by
  induction bs generalizing a j with
  | nil => simp at h
  | cons b bs ih =>
    simp only [Mem.ofBytes]
    cases j with
    | zero =>
      split
      · rename_i hb; rw [read_ofBytes_below bs (by omega)]; exact hb.symm
      · simp [Mem.read]
    | succ j =>
      simp only [List.length_cons] at h
      have e : a + (j + 1) = (a + 1) + j := by omega
      split
      · rw [e, ih (a + 1) j (by omega)]; rfl
      · simp only [Mem.read]; rw [if_neg (by omega), e, ih (a + 1) j (by omega)]; rfl

end Sys2Proof.Machine
end

