-- ==== Sys2Proof/Laws/Operands.lean ====
section
/-! SUPPORT. Register reads after register writes, the register-index check, and the ZERO flag. -/

namespace Sys2Proof.Machine

/-- All a register write does to register reads (R10). -/
theorem reg_setReg (s : State) (r q : Reg) (v : Byte) :
    (s.setReg r v).reg q = if r = q then v else s.reg q := by
  simp only [State.reg, State.setReg, Fin.getElem_fin, Vector.getElem_set, Fin.ext_iff]

@[simp] theorem reg_setReg_same (s : State) (r : Reg) (v : Byte) : (s.setReg r v).reg r = v := by
  simp [reg_setReg]

/-- All `RegIndex` does (R73): a byte below 8 is the register of that number, any other byte none. -/
theorem regIndex_cases (b : Byte) :
    (∃ r : Reg, b.toNat = r.val ∧ regIndex b = some r) ∨ (8 ≤ b.toNat ∧ regIndex b = none) := by
  unfold regIndex
  by_cases h : b.toNat < 8
  · exact .inl ⟨⟨b.toNat, h⟩, rfl, by rw [dif_pos h]⟩
  · exact .inr ⟨by omega, by rw [dif_neg h]⟩

theorem regIndex_of_toNat {b : Byte} {r : Reg} (h : b.toNat = r.val) : regIndex b = some r := by
  have hb : b.toNat < 8 := h ▸ r.isLt
  simp only [regIndex, hb, dite_true, Option.some.injEq]
  exact Fin.ext h

theorem regIndex_of_ge {b : Byte} (h : 8 ≤ b.toNat) : regIndex b = none := by
  simp [regIndex, Nat.not_lt.mpr h]

/-- Bit 0 of the SR value `SetZ` writes (R90). -/
theorem zeroInto_bit0 (sr v : Byte) : (zeroInto sr v).getLsbD 0 = decide (v = 0#8) := by
  unfold zeroInto
  split <;> simp_all

/-- Bits 7:1 of the SR value `SetZ` writes are the old ones (R90). -/
theorem zeroInto_upper (sr v : Byte) : zeroInto sr v &&& 0xFE#8 = sr &&& 0xFE#8 := by
  unfold zeroInto
  apply BitVec.eq_of_getLsbD_eq
  intro k hk
  have : k = 0 ∨ k = 1 ∨ k = 2 ∨ k = 3 ∨ k = 4 ∨ k = 5 ∨ k = 6 ∨ k = 7 := by omega
  rcases this with rfl | rfl | rfl | rfl | rfl | rfl | rfl | rfl <;> split <;> simp

@[simp] theorem zero_setZ (s : State) (v : Byte) : (s.setZ v).zero = decide (v = 0#8) :=
  zeroInto_bit0 s.sr v

end Sys2Proof.Machine
end

