-- ==== Sys2Proof/Laws/Exec.lean ====
section
/-! SUPPORT. What the shared operations of the meanings do: the ALU result and a fault taken. -/

namespace Sys2Proof.Machine

/-- PC after `n` fetched bytes, as a number (R13 (a)). -/
theorem advance_pc_toNat (s : State) (n : Nat) : (s.advance n).pc.toNat = (s.pc.toNat + n) % 65536 := by
  simp [BitVec.toNat_add]

/-- All an ALU result does (R90). -/
theorem aluResult_done (s : State) (v : Byte) :
    (s.aluResult v).reg 0 = v ∧ AluDone s (s.aluResult v) := by
  refine ⟨by simp [State.aluResult], by simp [State.aluResult], ?_, ?_, ?_, by simp [State.aluResult], fun _ => rfl, rfl, rfl, rfl⟩
  · simp [State.aluResult, BitVec.toNat_add]
  · intro r hr
    simp [State.aluResult, reg_setReg, Ne.symm hr]
  · exact zeroInto_upper s.sr v

/-- All a fault does after `n` fetched bytes (R76). -/
theorem raise_faultTaken (s : State) (k : Fault) (op : Byte) (n : Nat) :
    FaultTaken k n op s ((s.advance n).raise k s.pc op) :=
  ⟨rfl, rfl, rfl, advance_pc_toNat s n, fun _ => rfl, rfl, rfl, fun _ => rfl⟩

/-- All an illegal opcode does (R55, R141). -/
theorem decodeFault_faultTaken (s : State) (op : Byte) :
    FaultTaken .decodeFault 1 op s (s.decodeFault op) := raise_faultTaken s .decodeFault op 1

/-- All placing four bytes at PC does to the window (R35: the bytes may straddle the top of memory). -/
theorem window_placeBytes (s : State) (b0 b1 b2 b3 : Byte) :
    (State.placeBytes [b0, b1, b2, b3] s.pc s).window = [b0, b1, b2, b3] := by
  have e2 : s.pc + 1#16 + 1#16 = s.pc + 2#16 := by bv_omega
  have e3 : s.pc + 2#16 + 1#16 = s.pc + 3#16 := by bv_omega
  have n01 : ¬ s.pc + 1#16 = s.pc := by bv_omega
  have n02 : ¬ s.pc + 2#16 = s.pc := by bv_omega
  have n03 : ¬ s.pc + 3#16 = s.pc := by bv_omega
  have n12 : ¬ s.pc + 2#16 = s.pc + 1#16 := by bv_omega
  have n13 : ¬ s.pc + 3#16 = s.pc + 1#16 := by bv_omega
  have n23 : ¬ s.pc + 3#16 = s.pc + 2#16 := by bv_omega
  simp only [State.window, State.placeBytes, readMem_writeMem, writeMem_pc, e2, e3]
  simp only [n01, n02, n03, n12, n13, n23, if_true, if_false]

/-- All a placed instruction changes in the window: it is the placed bytes. -/
theorem window_withFetchWord (s : State) (nbits w : Nat) :
    (s.withFetchWord nbits w).window = tableBytes nbits w := by
  have h : (s.withFetchWord nbits w).window = (State.placeBytes (tableBytes nbits w) s.pc s).window := by
    simp [State.window, State.withFetchWord]
  rw [h]
  unfold tableBytes
  exact window_placeBytes s _ _ _ _

end Sys2Proof.Machine
end

