-- ==== Sys2Proof/Laws/PerInstr.lean ====
section
/-! SUPPORT. The statements made per instruction, one lemma per constructor. -/

namespace Sys2Proof.Laws.EncodedLength

/-- The encoding of an instruction is as long as the opcode byte alone says (30_encoding R59). -/
def Statement (i : Instr) : Prop := (encode i).length = instrLength i.opcode ∧ (encode i).head? = some i.opcode

theorem add : Statement (.add) := ⟨rfl, rfl⟩
theorem sub : Statement (.sub) := ⟨rfl, rfl⟩
theorem mul : Statement (.mul) := ⟨rfl, rfl⟩
theorem div : Statement (.div) := ⟨rfl, rfl⟩
theorem and : Statement (.and) := ⟨rfl, rfl⟩
theorem or : Statement (.or) := ⟨rfl, rfl⟩
theorem xor : Statement (.xor) := ⟨rfl, rfl⟩
theorem not : Statement (.not) := ⟨rfl, rfl⟩
theorem load (r : Byte) (addr : Addr) : Statement (.load r addr) := ⟨rfl, rfl⟩
theorem store (addr : Addr) (r : Byte) : Statement (.store addr r) := ⟨rfl, rfl⟩
theorem move (rd rs : Byte) : Statement (.move rd rs) := ⟨rfl, rfl⟩
theorem jmp (addr : Addr) : Statement (.jmp addr) := ⟨rfl, rfl⟩
theorem jmpz (addr : Addr) : Statement (.jmpz addr) := ⟨rfl, rfl⟩
theorem call (addr : Addr) : Statement (.call addr) := ⟨rfl, rfl⟩
theorem ret : Statement (.ret) := ⟨rfl, rfl⟩
theorem halt : Statement (.halt) := ⟨rfl, rfl⟩
theorem syscall : Statement (.syscall) := ⟨rfl, rfl⟩

end Sys2Proof.Laws.EncodedLength
end

