-- ==== Sys2Proof/Laws/Step.lean ====
section
/-! SUPPORT. All a step can do, said once: the inversion lemma that claims about every step are proved from. -/

namespace Sys2Proof.Machine

/-- The next states of a Running `s`, one constructor per shape of effect, with what the bytes at PC then are. -/
inductive StepCase (s : State) : State → Prop
  | alu (v : Byte) (hop : s.nextOpcode.toNat < 8) : StepCase s (s.aluResult v)
  | divByZero (hop : s.nextOpcode = 0x03#8) (hz : s.reg 2 = 0#8) :
      StepCase s ((s.advance 1).raise .divisionByZero s.pc 0x03#8)
  | load (r : Reg) (hop : s.nextOpcode = 0x08#8) (hr : (s.readMem (s.pc + 1#16)).toNat = r.val) :
      StepCase s ((s.advance 4).setReg r (s.readMem (beWord (s.readMem (s.pc + 2#16)) (s.readMem (s.pc + 3#16)))))
  | loadFault (hop : s.nextOpcode = 0x08#8) (hr : 8 ≤ (s.readMem (s.pc + 1#16)).toNat) :
      StepCase s ((s.advance 4).raise .addressingFault s.pc 0x08#8)
  | store (r : Reg) (hop : s.nextOpcode = 0x09#8) (hr : (s.readMem (s.pc + 3#16)).toNat = r.val) :
      StepCase s ((s.advance 4).writeMem s.operandAddr (s.reg r))
  | storeFault (hop : s.nextOpcode = 0x09#8) (hr : 8 ≤ (s.readMem (s.pc + 3#16)).toNat) :
      StepCase s ((s.advance 4).raise .addressingFault s.pc 0x09#8)
  | move (d x : Reg) (hop : s.nextOpcode = 0x0A#8) (hd : (s.readMem (s.pc + 1#16)).toNat = d.val)
      (hx : (s.readMem (s.pc + 2#16)).toNat = x.val) : StepCase s ((s.advance 3).setReg d (s.reg x))
  | moveFault (hop : s.nextOpcode = 0x0A#8)
      (hr : 8 ≤ (s.readMem (s.pc + 1#16)).toNat ∨ 8 ≤ (s.readMem (s.pc + 2#16)).toNat) :
      StepCase s ((s.advance 3).raise .addressingFault s.pc 0x0A#8)
  | jmp (hop : s.nextOpcode = 0x0B#8) : StepCase s ((s.advance 3).setPc s.operandAddr)
  | jmpzTaken (hop : s.nextOpcode = 0x0C#8) (hz : s.zero = true) : StepCase s ((s.advance 3).setPc s.operandAddr)
  | jmpzNotTaken (hop : s.nextOpcode = 0x0C#8) (hz : s.zero = false) : StepCase s (s.advance 3)
  | call (hop : s.nextOpcode = 0x0D#8) :
      StepCase s ((((s.advance 3).push (loByte (s.advance 3).pc)).push (hiByte (s.advance 3).pc)).setPc s.operandAddr)
  | ret (hop : s.nextOpcode = 0x0E#8) :
      StepCase s (((s.advance 1).setSp (s.sp + 1#16 + 1#16)).setPc (beWord (s.readMem s.sp) (s.readMem (s.sp + 1#16))))
  | halt (hop : s.nextOpcode = 0x0F#8) : StepCase s ((s.advance 1).setRun .halted)
  | syscall (hop : s.nextOpcode = 0xA0#8) : StepCase s ((s.advance 1).raise .notImplemented s.pc 0xA0#8)
  | illegal (hop : opcodeRow s.nextOpcode = none) :
      StepCase s ((s.advance 1).raise .decodeFault s.pc s.nextOpcode)

/-- A step that answers a next state was taken from a Running state and is one of the cases. -/
theorem step_inversion {s t : State} (h : step s = .next t) : s.run = .running ∧ StepCase s t := by
  obtain ⟨hr, ⟨i, hd, he⟩ | ⟨ho, rfl⟩⟩ := step_cases h
  · refine ⟨hr, ?_⟩
    cases i with
    | load b addr =>
      obtain ⟨hop, rfl, rfl⟩ := hd
      rcases regIndex_cases (s.readMem (s.pc + 1#16)) with ⟨r, h1, h2⟩ | ⟨h1, h2⟩ <;>
        simp only [exec, execLoad, h2, Host.Outcome.next.injEq] at he <;> subst he
      · exact .load r hop h1
      · exact .loadFault hop h1
    | store addr b =>
      obtain ⟨hop, rfl, rfl⟩ := hd
      rcases regIndex_cases (s.readMem (s.pc + 3#16)) with ⟨r, h1, h2⟩ | ⟨h1, h2⟩ <;>
        simp only [exec, execStore, h2, Host.Outcome.next.injEq] at he <;> subst he
      · exact .store r hop h1
      · exact .storeFault hop h1
    | move bd bs =>
      obtain ⟨hop, rfl, rfl⟩ := hd
      rcases regIndex_cases (s.readMem (s.pc + 1#16)) with ⟨d, h1, h2⟩ | ⟨h1, h2⟩ <;>
        rcases regIndex_cases (s.readMem (s.pc + 2#16)) with ⟨x, h3, h4⟩ | ⟨h3, h4⟩ <;>
        simp only [exec, execMove, h2, h4, Host.Outcome.next.injEq] at he <;> subst he
      · exact .move d x hop h1 h3
      · exact .moveFault hop (.inr h3)
      · exact .moveFault hop (.inl h1)
      · exact .moveFault hop (.inl h1)
    | jmp addr => obtain ⟨hop, rfl⟩ := hd; cases he; exact .jmp hop
    | jmpz addr =>
      obtain ⟨hop, rfl⟩ := hd
      cases he
      cases hz : s.zero with
      | true => exact .jmpzTaken hop hz
      | false => exact .jmpzNotTaken hop hz
    | call addr => obtain ⟨hop, rfl⟩ := hd; cases he; exact .call hop
    | div =>
      have hop : s.nextOpcode = 0x03#8 := hd
      simp only [exec, execDiv] at he
      split at he
      · rename_i hz; cases he; exact .divByZero hop hz
      · cases he; exact .alu _ (by rw [hop]; decide)
    | ret => cases he; exact .ret hd
    | halt => cases he; exact .halt hd
    | syscall => cases he; exact .syscall hd
    | add | sub | mul | and | or | xor | not =>
      have hop : s.nextOpcode = _ := hd
      cases he
      exact .alu _ (by rw [hop]; decide)
  · exact ⟨hr, .illegal ho⟩

end Sys2Proof.Machine
end

