-- ==== Sys2Proof/Tests/Slice0.lean ====
section
/-! SUPPORT. The model's own tests, with expected results from spec/95_test_vectors.md and the encoding tables of
30_encoding, and a witness for the hypotheses of each obligation. -/

namespace Sys2Proof.Tests

open Sys2Proof.Machine

/-! ## Helpers -/

/-- Reset, with bytes at 0x0100 (the start state of 95_test_vectors). -/
def start (bytes : List Byte) : State := State.placeBytes bytes 0x0100#16 State.reset

/-- What `f` sees in the next state, `none` where there is none. -/
def see {α : Type} (f : State → α) (o : Host.Outcome State Fault Refusal) : Option α :=
  match o with
  | .next t => some (f t)
  | .fault _ => none
  | .refused _ => none

/-- The state of an outcome, `d` where there is none. -/
def stateOr (d : State) (o : Host.Outcome State Fault Refusal) : State := (see id o).getD d

/-- The state after a step, where there is one. -/
def after (s : State) : State := stateOr s (step s)

/-- An ALU vector of 95_test_vectors 2.1: `x[0]` starts at 0x77. -/
def alu (op x1 x2 : Byte) (z : Bool) : State :=
  (((start [op]).setReg 0 0x77#8).setReg 1 x1 |>.setReg 2 x2).setZ (if z then 0#8 else 1#8)

/-- What an ALU vector shows. -/
def aluView (t : State) : Byte × Bool × Addr × RunState := (t.reg 0, t.zero, t.pc, t.run)

/-! ## Well-formedness: each check refuses an ill-formed term -/

theorem test_wellFormed_load_refuses_8 : Instr.wellFormed (.load 8 0x0200) = false := by decide
theorem test_wellFormed_store_refuses_255 : Instr.wellFormed (.store 0x0300 0xFF) = false := by decide
theorem test_wellFormed_move_refuses_bad_destination : Instr.wellFormed (.move 8 0) = false := by decide
theorem test_wellFormed_move_refuses_bad_source : Instr.wellFormed (.move 0 0x10) = false := by decide
theorem test_wellFormed_accepts_7 : Instr.wellFormed (.move 7 7) = true := by decide

/-! ## Decoding: each word written out from R50, R51 and R54, byte 0 first and bit 7 first -/

theorem test_decode_add : decodeInstr [0b00000000#8] = some .add := by decide
theorem test_decode_sub : decodeInstr [0b00000001#8] = some .sub := by decide
theorem test_decode_mul : decodeInstr [0b00000010#8] = some .mul := by decide
theorem test_decode_div : decodeInstr [0b00000011#8] = some .div := by decide
theorem test_decode_and : decodeInstr [0b00000100#8] = some .and := by decide
theorem test_decode_or : decodeInstr [0b00000101#8] = some .or := by decide
theorem test_decode_xor : decodeInstr [0b00000110#8] = some .xor := by decide
theorem test_decode_not : decodeInstr [0b00000111#8] = some .not := by decide
/-- R61: `LOAD R1, 0x0200` is `08 01 02 00`. -/
theorem test_decode_load :
    decodeInstr [0b00001000#8, 0b00000001#8, 0b00000010#8, 0b00000000#8] = some (.load 1 0x0200) := by decide
/-- 95 V-D7: `STORE 0x0000, R5` is `09 00 00 05`; V-D9: `09 00 03 00` stores R0 at 0x0003. -/
theorem test_decode_store :
    decodeInstr [0b00001001#8, 0b00000000#8, 0b00000011#8, 0b00000000#8] = some (.store 0x0003 0) := by decide
/-- R61: `MOVE R1, R0` is `0A 01 00`, destination first. -/
theorem test_decode_move : decodeInstr [0b00001010#8, 0b00000001#8, 0b00000000#8] = some (.move 1 0) := by decide
/-- 95 V-C1. -/
theorem test_decode_jmp : decodeInstr [0b00001011#8, 0b00010010#8, 0b00110100#8] = some (.jmp 0x1234) := by decide
/-- R61: `JMPZ 0x0110` is `0C 01 10`. -/
theorem test_decode_jmpz : decodeInstr [0b00001100#8, 0b00000001#8, 0b00010000#8] = some (.jmpz 0x0110) := by decide
/-- 95 V-C5. -/
theorem test_decode_call : decodeInstr [0b00001101#8, 0b00000001#8, 0b00010000#8] = some (.call 0x0110) := by decide
theorem test_decode_ret : decodeInstr [0b00001110#8] = some .ret := by decide
theorem test_decode_halt : decodeInstr [0b00001111#8] = some .halt := by decide
theorem test_decode_syscall : decodeInstr [0b10100000#8] = some .syscall := by decide
/-- R55: the edges of the illegal ranges are rejected by name, and a list that ends early as truncated. -/
theorem test_decode_rejects :
    decode [0x10#8] = .error (.unknownOpcode 0x10#8) ∧ decode [0x9F#8, 0#8] = .error (.unknownOpcode 0x9F#8) ∧
    decode [0xA1#8] = .error (.unknownOpcode 0xA1#8) ∧ decode [0xFF#8] = .error (.unknownOpcode 0xFF#8) ∧
    decode [0x08#8, 1#8] = .error .truncated := ⟨rfl, rfl, rfl, rfl, rfl⟩
/-- The opcode table's numbering: `08 01 02 00` is 0x00020108, and bits from `nbits` up are zero. -/
theorem test_decodeTableWord :
    decodeTableWord 32 0x00020108 = some (.load 1 0x0200) ∧ decodeTableWord 8 0x00020109 = some (.store 0 0) := by decide
/-- A placed instruction is the first one after reset. -/
theorem test_withFetchWord :
    see (fun t => (t.run, t.faultOpcode)) (step (State.reset.withFetchWord 8 0xA0)) =
      some (.faulted .notImplemented, 0xA0#8) := by decide

/-! ## One step per vector of 95_test_vectors -/

/-- V-A2 -/
theorem test_add_mod256 : see aluView (step (alu 0x00 0xC8 0x64 true)) = some (0x2C, false, 0x0101, .running) := by decide
/-- V-A3 -/
theorem test_add_wraps_to_zero : see aluView (step (alu 0x00 0xFF 0x01 false)) = some (0x00, true, 0x0101, .running) := by decide
/-- V-A6 -/
theorem test_sub_borrows : see aluView (step (alu 0x01 0x00 0x01 true)) = some (0xFF, false, 0x0101, .running) := by decide
/-- V-A7 -/
theorem test_sub_order : see aluView (step (alu 0x01 0x05 0x07 false)) = some (0xFE, false, 0x0101, .running) := by decide
/-- V-A10 -/
theorem test_mul_low_byte : see aluView (step (alu 0x02 0x14 0x0D false)) = some (0x04, false, 0x0101, .running) := by decide
/-- V-A11 -/
theorem test_mul_zero_low_byte : see aluView (step (alu 0x02 0x10 0x10 false)) = some (0x00, true, 0x0101, .running) := by decide
/-- V-A16 -/
theorem test_div_truncates : see aluView (step (alu 0x03 0xC8 0x07 false)) = some (0x1C, false, 0x0101, .running) := by decide
/-- V-A21 -/
theorem test_div_by_zero :
    see aluView (step (alu 0x03 0x09 0x00 true)) = some (0x77, true, 0x0101, .faulted .divisionByZero) := by decide
/-- V-A23 -/
theorem test_and : see aluView (step (alu 0x04 0xCC 0xAA false)) = some (0x88, false, 0x0101, .running) := by decide
/-- V-A24 -/
theorem test_and_disjoint : see aluView (step (alu 0x04 0xF0 0x0F false)) = some (0x00, true, 0x0101, .running) := by decide
/-- V-A25 -/
theorem test_or : see aluView (step (alu 0x05 0xCC 0xAA false)) = some (0xEE, false, 0x0101, .running) := by decide
/-- V-A26 -/
theorem test_or_zero : see aluView (step (alu 0x05 0x00 0x00 false)) = some (0x00, true, 0x0101, .running) := by decide
/-- V-A27 -/
theorem test_xor : see aluView (step (alu 0x06 0xCC 0xAA false)) = some (0x66, false, 0x0101, .running) := by decide
/-- V-A28 -/
theorem test_xor_equal : see aluView (step (alu 0x06 0x5A 0x5A false)) = some (0x00, true, 0x0101, .running) := by decide
/-- V-A29 -/
theorem test_not_ignores_r2 : see aluView (step (alu 0x07 0x5A 0x33 false)) = some (0xA5, false, 0x0101, .running) := by decide
/-- V-A30 -/
theorem test_not_ff : see aluView (step (alu 0x07 0xFF 0x00 false)) = some (0x00, true, 0x0101, .running) := by decide
/-- V-D3 -/
theorem test_load_highest : see (fun t => (t.reg 7, t.pc))
    (step ((start [0x08#8, 0x07#8, 0xFF#8, 0xFF#8]).writeMem 0xFFFF 0x9A)) = some (0x9A, 0x0104) := by decide
/-- V-D5 -/
theorem test_load_bad_register : see (fun t => (t.run, t.faultPc, t.faultOpcode, t.pc, t.regs))
    (step ((start [0x08#8, 0x08#8, 0x02#8, 0x00#8]).writeMem 0x0200 0xC8)) =
      some (.faulted .addressingFault, 0x0100, 0x08, 0x0104, Vector.replicate 8 0) := by decide
/-- V-D9: address first, register last -/
theorem test_store_operand_order : see (fun t => (t.readMem 0x0003, t.readMem 0x0300, t.pc))
    (step ((start [0x09#8, 0x00#8, 0x03#8, 0x00#8]).setReg 0 0x2C)) = some (0x2C, 0x00, 0x0104) := by decide
/-- V-D8 -/
theorem test_store_bad_register : see (fun t => (t.run, t.faultOpcode, t.pc, t.readMem 0x0300))
    (step ((start [0x09#8, 0x03#8, 0x00#8, 0xFF#8]).setReg 0 0x2C)) =
      some (.faulted .addressingFault, 0x09, 0x0104, 0x00) := by decide
/-- V-D10 -/
theorem test_move_destination_first : see (fun t => (t.reg 1, t.reg 0, t.pc))
    (step ((start [0x0A#8, 0x01#8, 0x00#8]).setReg 0 0x07)) = some (0x07, 0x07, 0x0103) := by decide
/-- V-D14: the index is not taken modulo 8 -/
theorem test_move_bad_source : see (fun t => (t.run, t.reg 0, t.pc))
    (step ((start [0x0A#8, 0x00#8, 0x10#8]).setReg 0 0x33)) = some (.faulted .addressingFault, 0x33, 0x0103) := by decide
/-- V-C1 -/
theorem test_jmp : see (fun t => t.pc) (step (start [0x0B#8, 0x12#8, 0x34#8])) = some 0x1234 := by decide
/-- V-C11: the instruction straddles the top of memory -/
theorem test_jmp_straddles : see (fun t => t.pc)
    (step ((State.placeBytes [0x0B#8, 0x02#8, 0x00#8] 0xFFFE State.reset).setPc 0xFFFE)) = some 0x0200 := by decide
/-- V-C3 and V-C4 -/
theorem test_jmpz_taken : see (fun t => (t.pc, t.zero))
    (step (((State.placeBytes [0x0C#8, 0x01#8, 0x05#8] 0x0101 State.reset).setPc 0x0101).setZ 0)) = some (0x0105, true) := by decide
theorem test_jmpz_not_taken : see (fun t => (t.pc, t.zero))
    (step ((State.placeBytes [0x0C#8, 0x01#8, 0x05#8] 0x0101 State.reset).setPc 0x0101)) = some (0x0104, false) := by decide
/-- V-C5 -/
theorem test_call : see (fun t => (t.readMem 0x00FE, t.readMem 0x00FD, t.sp, t.pc))
    (step ((State.placeBytes [0x0D#8, 0x01#8, 0x10#8] 0x0108 State.reset).setPc 0x0108)) =
      some (0x0B, 0x01, 0x00FD, 0x0110) := by decide
/-- V-C8: SP wraps below zero -/
theorem test_call_wraps : see (fun t => (t.readMem 0x0000, t.readMem 0xFFFF, t.sp, t.pc))
    (step ((start [0x0D#8, 0x02#8, 0x00#8]).setSp 0x0001)) = some (0x03, 0x01, 0xFFFF, 0x0200) := by decide
/-- V-C10: a RET from the reset state reads its own opcode byte as the low byte -/
theorem test_ret_from_reset : see (fun t => (t.pc, t.sp)) (step ((start [0x0E#8]).writeMem 0x00FF 0x02)) =
    some (0x020E, 0x0101) := by decide
/-- V-C9: SP wraps above 0xFFFF -/
theorem test_ret_wraps : see (fun t => (t.pc, t.sp))
    (step ((((start [0x0E#8]).setSp 0xFFFF).writeMem 0xFFFF 0x12).writeMem 0x0000 0x34)) = some (0x1234, 0x0001) := by decide
/-- V-S1 -/
theorem test_halt : see (fun t => (t.run, t.pc)) (step (start [0x0F#8])) = some (.halted, 0x0101) := by decide
/-- V-S3 -/
theorem test_syscall : see (fun t => (t.run, t.faultPc, t.faultOpcode, t.pc)) (step (start [0xA0#8])) =
    some (.faulted .notImplemented, 0x0100, 0xA0, 0x0101) := by decide
/-- V-F5: bytes after an illegal opcode are not consumed or executed -/
theorem test_illegal_opcode : see (fun t => (t.run, t.faultOpcode, t.pc, t.readMem 0x0300))
    (step (start [0xFF#8, 0x09#8, 0x03#8, 0x00#8, 0x00#8])) = some (.faulted .decodeFault, 0xFF, 0x0101, 0x00) := by decide
/-- V-F6 -/
theorem test_terminal_takes_no_step : see (fun t => t.pc) (step (after (start [0x0F#8]))) = none := by decide

/-! ## Witnesses: the hypotheses of each obligation can be met -/

/-- A state whose next instruction is `op` with operand bytes 0x07, and SP, ZERO and R2 as reset leaves them. -/
def placed (op : Byte) : State := start [op, 0x07#8, 0x07#8, 0x07#8]

/-- The hypothesis `step s = .next t` of the obligations about every step, and each opcode of OperandsAreFetchedInEncodingOrder, at every opcode byte, so that each of their clauses (one
opcode, a range of opcodes, an illegal opcode) is met. -/
theorem witness_step_at_every_opcode :
    ∀ op : Byte, (see State.nextOpcode (step (placed op))).isSome = true ∧ (placed op).nextOpcode = op ∧
      (placed op).run = .running := by decide

/-- EncodeOfDecode. -/
theorem witness_EncodeOfDecode : decode [0x08#8, 0xFF#8, 0x02#8, 0x00#8, 0x55#8] = .ok (.load 0xFF 0x0200, [0x55#8]) := by rfl

/-- StepRunsDecodedInstr, with an instruction that straddles the top of memory and one whose register byte is illegal. -/
theorem witness_StepRunsDecodedInstr :
    (∃ (s : State) (rest : List Byte), s.run = .running ∧ s.pc = 0xFFFE#16 ∧ decode s.window = .ok (.jmp 0x0200, rest)) ∧
    (∃ (s : State) (rest : List Byte), s.run = .running ∧ decode s.window = .ok (.store 0x0300 0xFF, rest)) :=
  ⟨⟨(State.placeBytes [0x0B#8, 0x02#8, 0x00#8] 0xFFFE State.reset).setPc 0xFFFE, [0x00#8], rfl, rfl, rfl⟩,
   ⟨start [0x09#8, 0x03#8, 0x00#8, 0xFF#8], [], rfl, rfl⟩⟩

/-- RegIndexChecksExactlyRegisterOperands: bytes at the bound, a legal and an illegal instruction. -/
theorem witness_RegIndexChecks :
    (∃ r : Reg, r.val = (0x07#8 : Byte).toNat) ∧ 8 ≤ (0x08#8 : Byte).toNat ∧
    (State.reset.run ≠ .faulted .addressingFault ∧
      (∃ t, exec (.load 7 0) State.reset = .next t) ∧ ∃ t, exec (.load 8 0) State.reset = .next t) :=
  ⟨⟨7, rfl⟩, by decide, by decide, ⟨_, rfl⟩, ⟨_, rfl⟩⟩

/-- CanonicalMemoryIsDeterminedByReads, for two memories written in a different order. -/
theorem witness_CanonicalMemory :
    ∃ m n : Mem, m ≠ [] ∧ Mem.wf m = true ∧ Mem.wf n = true ∧ ∀ a : Addr, Mem.read m a.toNat = Mem.read n a.toNat :=
  ⟨Mem.write (Mem.write [] 5 1) 0 9, Mem.write (Mem.write (Mem.write [] 0 9) 7 0) 5 1, by decide, rfl, rfl, fun _ => rfl⟩

/-- BootLoadsTheImage and BootRefusesOtherSizes, at the bound. -/
theorem witness_Boot :
    (∃ image : List Byte, image.length = 65536) ∧ ∃ image : List Byte, image.length = 65535 :=
  ⟨⟨List.replicate 65536 0x01#8, List.length_replicate⟩, ⟨List.replicate 65535 0x01#8, List.length_replicate⟩⟩

/-- StepKeepsTheInvariant: a state that has the invariant, other than reset, and steps; and a faulted state that has it, so that the
clauses about the record are not empty. -/
theorem witness_StepKeepsTheInvariant :
    (∃ s t : State, s.Inv ∧ step s = .next t ∧ s.mem ≠ []) ∧
    (∃ s : State, s.Inv ∧ s.run = .faulted .addressingFault) := by
  refine ⟨⟨start [0xFF#8], after (start [0xFF#8]), ?_, rfl, by decide⟩, ⟨after (start [0x0A#8, 0x00#8, 0x08#8]), ?_, rfl⟩⟩
  · exact ⟨rfl, rfl, fun _ => ⟨rfl, rfl⟩, fun k h => by simp [start, State.placeBytes, State.reset] at h,
      fun k h => by simp [start, State.placeBytes, State.reset] at h⟩
  · refine ⟨rfl, rfl, fun h => absurd rfl (h .addressingFault), fun k _ => rfl, fun k h => ?_⟩
    have hk : RunState.faulted .addressingFault = .faulted k := h
    injection hk with hk
    subst hk
    exact .inr (.inr ⟨rfl, .inr (by decide), rfl⟩)

/-- DivWritesTruncatedQuotient and DivByZeroFaults, at the divisors 1 and 0. -/
theorem witness_Div : (State.reset.setReg 2 1).reg 2 ≠ 0#8 ∧ State.reset.reg 2 = 0#8 := by decide

/-- AluDependsOnlyOnR1AndR2: two states that differ in every other kind of state. -/
theorem witness_AluDependsOnly :
    ∃ s s' t t' : State, s ≠ s' ∧ exec .div s = .next t ∧ exec .div s' = .next t' ∧ s.reg 1 = s'.reg 1 ∧
      s.reg 2 = s'.reg 2 ∧ s.reg 2 ≠ 0#8 :=
  ⟨State.reset.setReg 2 3, (((start [0xFF#8]).setReg 2 3).setReg 5 9).setSp 7, _, _, by decide, rfl, rfl, by decide, by decide, by decide⟩

/-- LoadMovesByteToRegister, StoreMovesByteToMemory, MoveCopiesRegister: the highest and the lowest register byte. -/
theorem witness_RegisterByte :
    (∃ r : Reg, (0x07#8 : Byte).toNat = r.val) ∧ ∃ r : Reg, (0x00#8 : Byte).toNat = r.val := ⟨⟨7, rfl⟩, ⟨0, rfl⟩⟩

/-- BadRegisterByteFaults, each clause at 8 and at 255; MOVE with only one byte bad. -/
theorem witness_BadRegisterByte :
    8 ≤ (0x08#8 : Byte).toNat ∧ 8 ≤ (0xFF#8 : Byte).toNat ∧
    (8 ≤ (0x08#8 : Byte).toNat ∨ 8 ≤ (0x07#8 : Byte).toNat) ∧ (8 ≤ (0x07#8 : Byte).toNat ∨ 8 ≤ (0x08#8 : Byte).toNat) := by decide

/-- StoreThenLoadReturnsTheByte: `STORE 0x0300, R0` then `LOAD R7, 0x0300`. -/
theorem witness_StoreThenLoad :
    ∃ (s t : State) (rest rest' : List Byte), s.run = .running ∧
      decode s.window = .ok (.store 0x0300 0x00, rest) ∧
      decode [s.readMem (s.pc + 4#16), s.readMem (s.pc + 5#16), s.readMem (s.pc + 6#16), s.readMem (s.pc + 7#16)] =
        .ok (.load 0x07 0x0300, rest') ∧
      (0x0300#16 : Addr) ∉ [s.pc + 4#16, s.pc + 5#16, s.pc + 6#16, s.pc + 7#16] ∧ step s = .next t :=
  ⟨start [0x09#8, 0x03#8, 0x00#8, 0x00#8, 0x08#8, 0x07#8, 0x03#8, 0x00#8], _, [], [], rfl, rfl, rfl, by decide, rfl⟩

/-- JmpzBranchesOnZero, both cases. -/
theorem witness_Jmpz : (State.reset.setZ 0).zero = true ∧ State.reset.zero = false := by decide

/-- RetPopsReturnAddress, the round-trip clause: a state reached after the CALL that kept SP and the stack bytes. -/
theorem witness_RetPops :
    ∃ s t t' : State, exec (.call 0x0200) s = .next t ∧ t' ≠ t ∧ t'.sp = t.sp ∧
      t'.readMem t.sp = t.readMem t.sp ∧ t'.readMem (t.sp + 1#16) = t.readMem (t.sp + 1#16) :=
  ⟨State.reset, stateOr State.reset (exec (.call 0x0200) State.reset),
    (stateOr State.reset (exec (.call 0x0200) State.reset)).setReg 3 9, rfl, by decide, rfl, rfl, rfl⟩

/-- CallThenRetReturns: the source's `CALL 0x0110` at 0x0108 with a RET there. -/
theorem witness_CallThenRet :
    ∃ (s t : State) (rest : List Byte), s.run = .running ∧ decode s.window = .ok (.call 0x0110, rest) ∧
      s.readMem 0x0110 = 0x0E#8 ∧ (0x0110#16 : Addr) ∉ [s.sp - 1#16, s.sp - 2#16] ∧ step s = .next t :=
  ⟨(start [0x0D#8, 0x01#8, 0x10#8]).writeMem 0x0110 0x0E, _, [0x00#8], rfl, rfl, by decide, by decide, rfl⟩

/-- IllegalOpcodeFaults and IllegalOpcodesRejected, at the ends of both ranges. -/
theorem witness_IllegalOpcode :
    (IllegalOpcode (placed 0x10).nextOpcode ∧ IllegalOpcode (placed 0x9F).nextOpcode ∧
     IllegalOpcode (placed 0xA1).nextOpcode ∧ IllegalOpcode (placed 0xFF).nextOpcode) ∧
    ¬ IllegalOpcode 0x0F#8 ∧ ¬ IllegalOpcode 0xA0#8 := by
  unfold IllegalOpcode
  decide

/-- TerminalStatesTakeNoStep: a halted and a faulted state. -/
theorem witness_Terminal :
    (after (start [0x0F#8])).Terminal ∧ (after (start [0xA0#8])).Terminal := by
  unfold State.Terminal
  decide

/-- FaultsArePrecise and FaultKindsHaveTheirConditions: a step into each of the four kinds, with each instruction that raises it. -/
theorem witness_Faults :
    (after (placed 0x10)).run = .faulted .decodeFault ∧ (after (placed 0xA0)).run = .faulted .notImplemented ∧
    (after (placed 0x03)).run = .faulted .divisionByZero ∧
    (after (start [0x08#8, 0x08#8])).run = .faulted .addressingFault ∧
    (after (start [0x09#8, 0x00#8, 0x00#8, 0x08#8])).run = .faulted .addressingFault ∧
    (after (start [0x0A#8, 0x00#8, 0x08#8])).run = .faulted .addressingFault := by decide

/-- ZeroWrittenByAluOnly: an ALU step that leaves the machine Running, at the first and the last ALU opcode. -/
theorem witness_ZeroWritten : (after (placed 0x00)).run = .running ∧ (after (placed 0x07)).run = .running := by decide

/-- StoreSeenByTheNextFetch: a HALT byte in R3 stored over the next opcode (program P6's second step). -/
theorem witness_StoreSeen :
    ∃ (s t : State) (rest : List Byte), s.run = .running ∧ (0x03#8 : Byte).toNat = (3 : Reg).val ∧
      decode s.window = .ok (.store (s.pc + 4#16) 0x03, rest) ∧ step s = .next t ∧ s.reg 3 = 0x0F#8 :=
  ⟨(start [0x09#8, 0x01#8, 0x04#8, 0x03#8, 0xFF#8]).setReg 3 0x0F, _, [], rfl, rfl, rfl, rfl, by decide⟩

/-- FaultRecordAndUpperSrUnobserved. -/
theorem witness_Unobserved :
    ∃ (s t : State) (sr : Byte), s.run = .running ∧ sr.getLsbD 0 = s.zero ∧ sr ≠ s.sr ∧ step s = .next t :=
  ⟨placed 0x0C, _, 0xFE#8, rfl, by decide, by decide, rfl⟩

/-- WellFormedInstrDoesNotFault: a DIV by one, and a HALT. -/
theorem witness_WellFormed :
    (Instr.div.wellFormed = true ∧ Instr.div ≠ .syscall ∧ (State.reset.setReg 2 1).reg 2 ≠ 0#8 ∧
      (State.reset.setReg 2 1).run = .running) ∧
    (Instr.halt.wellFormed = true ∧ Instr.halt ≠ .syscall ∧ Instr.halt ≠ .div ∧ State.reset.run = .running) := by decide

/-- R140's table of codes. -/
theorem test_faultCode : faultCode .running = 0 ∧ faultCode .halted = 0 ∧ faultCode (.faulted .decodeFault) = 1 ∧
    faultCode (.faulted .notImplemented) = 2 ∧ faultCode (.faulted .divisionByZero) = 3 ∧
    faultCode (.faulted .addressingFault) = 4 := by decide

/-- HostSeesTheTerminalCondition: a step that goes on and one that halts; `witness_Faults` has one into each of the four kinds. -/
theorem witness_HostSees : (after (placed 0x00)).run = .running ∧ (after (placed 0x0F)).run = .halted := by decide

/-- An image that is zero but for its first byte. -/
def image1 : List Byte := 0x01#8 :: List.replicate 65535 Config.unlistedByte

theorem boot_image1 : boot image1 = .next (State.reset.writeMem 0x0000 0x01) := by
  rw [boot, if_pos (by rw [image1, List.length_cons, List.length_replicate]; rfl)]
  simp only [image1, Mem.ofBytes, ofBytes_replicate_unlisted]
  rfl

/-- EveryRunFromAnImageKeepsTheInvariant: an image that is not zero, and a run of two steps from it, into a state that is neither. -/
theorem witness_EveryRun :
    ∃ (image : List Byte) (s t : State), boot image = .next s ∧ Host.Core.run Sys2Proof.core 2 s = .next t ∧ s.mem ≠ [] ∧ t ≠ s :=
  ⟨image1, _, (((State.reset.writeMem 0x0000 0x01).advance 2).setZ 0), boot_image1, rfl, by decide, by decide⟩

/-- PlacedInstructionRunsNext: the longest instruction, and one whose operand bits the table leaves out. -/
theorem witness_Placed :
    decodeTableWord 32 0xFFFF0708 = some (.load 7 0xFFFF) ∧ decodeTableWord 8 0x0D = some (.call 0) := by decide

end Sys2Proof.Tests
end

section
/-! The reasoning rules of `State.writeMem` (20_memory R32): the byte it writes, and its frame. -/

namespace Sys2Proof.Machine

variable (s : State) (a : Addr) (v : Byte)

@[simp] theorem readMem_writeMem_same : (s.writeMem a v).readMem a = v := by
  rw [readMem_writeMem, if_pos rfl]

theorem readMem_writeMem_of_ne {c : Addr} (h : a ≠ c) : (s.writeMem a v).readMem c = s.readMem c := by
  rw [readMem_writeMem, if_neg h]

theorem sameMemBut_writeMem : SameMemBut [a] s (s.writeMem a v) := fun _ hc =>
  readMem_writeMem_of_ne s a v (List.ne_of_not_mem_cons hc).symm

theorem sameRegs_writeMem : SameRegs s (s.writeMem a v) := reg_writeMem s a v

theorem sameRun_writeMem : SameRun s (s.writeMem a v) :=
  ⟨writeMem_run s a v, writeMem_faultPc s a v, writeMem_faultOpcode s a v⟩

end Sys2Proof.Machine
end

section

namespace Sys2Proof.Machine

/-- Settles O10: `readMem_writeMem` decides every read by whether the address is the one written; every other
field is one `writeMem` does not touch. -/
theorem writeChangesOneByteOnly : Obligations.WriteChangesOneByteOnly := fun s a v =>
  ⟨readMem_writeMem_same s a v, sameMemBut_writeMem s a v, sameRegs_writeMem s a v,
    writeMem_pc s a v, writeMem_sp s a v, writeMem_sr s a v, sameRun_writeMem s a v⟩

end Sys2Proof.Machine
end

section
/-! The frame of fetching (40_execution_cycle R71, R72): only PC moves. And the address operand a FetchWord
after the opcode byte assembles. -/

namespace Sys2Proof.Machine

variable (s : State) (n : Nat)

theorem sameRegs_advance : SameRegs s (s.advance n) := reg_advance s n

theorem sameMem_advance : SameMem s (s.advance n) := readMem_advance s n

theorem sameRun_advance : SameRun s (s.advance n) :=
  ⟨advance_run s n, advance_faultPc s n, advance_faultOpcode s n⟩

/-- The low byte's address is `(s.pc + 1) + 1`, which is `s.pc + 2` also where PC wraps. -/
theorem fetchWord_value_after_fetchByte : s.fetchByte.2.fetchWord.1 = s.operandAddr := by
  have hlo : s.pc + 1#16 + 1#16 = s.pc + 2#16 := BitVec.add_assoc s.pc 1#16 1#16
  rw [fetchByte_state, fetchWord_value, readMem_advance, readMem_advance, advance_pc, hlo, State.operandAddr]

end Sys2Proof.Machine
end

section

namespace Sys2Proof.Machine

/-- Settles O6: a FetchByte is the byte at PC and `advance 1`, so the frame is that of `advance`. -/
theorem fetchByteReadsAndAdvances : Obligations.FetchByteReadsAndAdvances := by
  intro s
  rw [fetchByte_value, fetchByte_state]
  exact ⟨rfl, advance_pc_toNat s 1, sameRegs_advance s 1, advance_sr s 1, advance_sp s 1,
    sameMem_advance s 1, sameRun_advance s 1⟩

/-- Settles O7: a FetchWord is the big-endian word at PC and `advance 2`, so the frame is that of `advance`. -/
theorem fetchWordIsBigEndian : Obligations.FetchWordIsBigEndian := by
  intro s
  rw [fetchWord_value, fetchWord_state]
  exact ⟨beWord_toNat _ _, advance_pc_toNat s 2, sameRegs_advance s 2, advance_sr s 2, advance_sp s 2,
    sameMem_advance s 2, sameRun_advance s 2, fetchWord_value_after_fetchByte s⟩

end Sys2Proof.Machine
end

section
/-! The rules of control transfer (43_control_transfer): each instruction's next state, as updates of the state whose
PC stands at the opcode byte. The PC an operand fetch leaves does not show in it, since the transfer overwrites it. -/

namespace Sys2Proof.Machine

variable (s : State)

/-- All a transfer of control alone leaves as it was (R124). -/
theorem setPc_frame (p : Addr) :
    SameRegs s (s.setPc p) ∧ (s.setPc p).sr = s.sr ∧ (s.setPc p).sp = s.sp ∧ SameMem s (s.setPc p) ∧
      SameRun s (s.setPc p) :=
  ⟨reg_setPc s p, setPc_sr s p, setPc_sp s p, readMem_setPc s p,
    setPc_run s p, setPc_faultPc s p, setPc_faultOpcode s p⟩

/-- The two pushes of CALL (R122): an address on the stack, low byte first. -/
def State.pushWord (v : Addr) (s : State) : State := (s.push (loByte v)).push (hiByte v)

/-- The two pops of RET (R123): the address at SP, high byte first. -/
def State.stackTop (s : State) : Addr := beWord (s.readMem s.sp) (s.readMem (s.sp + 1#16))

theorem exec_jmp (addr : Addr) : exec (.jmp addr) s = .next (s.setPc addr) := rfl

theorem exec_jmpz_taken (addr : Addr) (hz : s.zero = true) : exec (.jmpz addr) s = .next (s.setPc addr) := by
  rw [exec, execJmpz, if_pos hz]
  rfl

theorem exec_jmpz_notTaken (addr : Addr) (hz : s.zero = false) : exec (.jmpz addr) s = .next (s.advance 3) := by
  rw [exec, execJmpz, hz, if_neg Bool.false_ne_true]

theorem exec_call (addr : Addr) : exec (.call addr) s = .next ((s.pushWord (s.advance 3).pc).setPc addr) := rfl

/-- SP moves on `1 + 1`, which is 2 also where SP wraps. -/
theorem exec_ret : exec .ret s = .next ((s.setSp (s.sp + 2#16)).setPc s.stackTop) := by
  have hsp : s.sp + 1#16 + 1#16 = s.sp + 2#16 := BitVec.add_assoc s.sp 1#16 1#16
  rw [← hsp]
  rfl

/-! ### The word on the stack -/

@[simp] theorem pushWord_sp (v : Addr) : (s.pushWord v).sp = s.sp - 2#16 := by
  rw [State.pushWord, push_sp, push_sp]
  bv_omega

/-- All pushing an address does to reads. -/
theorem readMem_pushWord (v c : Addr) :
    (s.pushWord v).readMem c =
      if s.sp - 2#16 = c then hiByte v else if s.sp - 1#16 = c then loByte v else s.readMem c := by
  have hsp : s.sp - 1#16 - 1#16 = s.sp - 2#16 := by bv_omega
  rw [State.pushWord, readMem_push, push_sp, hsp, readMem_push]

theorem readMem_pushWord_high (v : Addr) : (s.pushWord v).readMem (s.sp - 2#16) = hiByte v := by
  rw [readMem_pushWord, if_pos rfl]

theorem readMem_pushWord_low (v : Addr) : (s.pushWord v).readMem (s.sp - 1#16) = loByte v := by
  have hne : s.sp - 2#16 ≠ s.sp - 1#16 := by bv_omega
  rw [readMem_pushWord, if_neg hne, if_pos rfl]

theorem sameMemBut_pushWord (v : Addr) : SameMemBut [s.sp - 1#16, s.sp - 2#16] s (s.pushWord v) := by
  intro c hc
  obtain ⟨hlow, hhigh⟩ : c ≠ s.sp - 1#16 ∧ c ≠ s.sp - 2#16 := by simpa using hc
  rw [readMem_pushWord, if_neg hhigh.symm, if_neg hlow.symm]

/-- The stack round trip behind CALL and RET: what was pushed is what lies on top. -/
@[simp] theorem stackTop_pushWord (v : Addr) : (s.pushWord v).stackTop = v := by
  have hlow : s.sp - 2#16 + 1#16 = s.sp - 1#16 := by bv_omega
  rw [State.stackTop, pushWord_sp, hlow, readMem_pushWord_high, readMem_pushWord_low, beWord_hiByte_loByte]

/-- `stackTop` depends on SP and the two bytes it names alone. -/
theorem stackTop_congr {t t' : State} (hsp : t'.sp = t.sp) (hhigh : t'.readMem t.sp = t.readMem t.sp)
    (hlow : t'.readMem (t.sp + 1#16) = t.readMem (t.sp + 1#16)) : t'.stackTop = t.stackTop := by
  rw [State.stackTop, hsp, hhigh, hlow, State.stackTop]

end Sys2Proof.Machine
end

section

namespace Sys2Proof.Machine

/-- Settles O35: RET goes to `stackTop`; after a CALL that is the continuation address by `stackTop_pushWord`, and
it still is in any state that kept SP and the two bytes by `stackTop_congr`. -/
theorem retPopsReturnAddress : Obligations.RetPopsReturnAddress := by
  refine ⟨rfl, fun s => ⟨_, exec_ret s, beWord_toNat _ _, rfl, ?_⟩, ?_⟩
  · exact ⟨fun _ => rfl, rfl, fun _ => rfl, rfl, rfl, rfl⟩
  · intro s t t' addr hcall hsp hhigh hlow
    have ht : (s.pushWord (s.advance 3).pc).setPc addr = t :=
      Host.Outcome.next.inj ((exec_call s addr).symm.trans hcall)
    have htop : t'.stackTop = (s.advance 3).pc := by
      rw [stackTop_congr hsp hhigh hlow, ← ht]
      exact stackTop_pushWord s _
    refine ⟨_, exec_ret t', ?_, ?_⟩
    · rw [setPc_pc, htop, advance_pc_toNat]
    · rw [setPc_sp, setSp_sp, hsp, ← ht, setPc_sp, pushWord_sp, BitVec.sub_add_cancel]

/-- Settles O32: JMP is `setPc`. -/
theorem jmpSetsPc : Obligations.JmpSetsPc :=
  ⟨fun _ => rfl, fun s addr => ⟨_, exec_jmp s addr, setPc_pc s addr, setPc_frame s addr⟩⟩

/-- Settles O33: a taken JMPZ is `setPc` to the operand; one not taken moves PC past the operand only. -/
theorem jmpzBranchesOnZero : Obligations.JmpzBranchesOnZero := by
  refine ⟨fun _ => rfl, fun s addr => ?_⟩
  cases hz : s.zero with
  | true => exact ⟨_, exec_jmpz_taken s addr hz, fun _ => setPc_pc s addr, nofun, setPc_frame s addr⟩
  | false => exact ⟨_, exec_jmpz_notTaken s addr hz, nofun, fun _ => advance_pc_toNat s 3, setPc_frame s _⟩

/-- Settles O34: CALL pushes the PC past its operand as a word, whose reads are those of `readMem_pushWord`. -/
theorem callPushesContinuation : Obligations.CallPushesContinuation := by
  refine ⟨fun _ => rfl, fun s addr => ⟨_, exec_call s addr, rfl, pushWord_sp s _, ?low, ?high,
    sameMemBut_pushWord s _, fun _ => rfl, rfl, rfl, rfl, rfl⟩⟩
  case low => rw [readMem_setPc, readMem_pushWord_low, loByte_toNat, advance_pc_toNat]
  case high => rw [readMem_setPc, readMem_pushWord_high, hiByte_toNat, advance_pc_toNat]

end Sys2Proof.Machine
end

section
/-! The decoder and the encoder, row by row (30_encoding R50 to R55): the operand bytes of an instruction are what its row
reads, and what a row reads is encoded as the bytes it read. -/

namespace Sys2Proof

/-- The row of an instruction's own opcode reads that instruction back from its operand bytes. -/
theorem exists_row_read_operandBytes (i : Instr) :
    ∃ sh, opcodeRow i.opcode = some sh ∧ ∀ rest, sh.read (i.operandBytes ++ rest) = some (i, rest) := by
  cases i with
  | load _ _ | store _ _ | jmp _ | jmpz _ | call _ =>
    exact ⟨_, rfl, fun _ => by simp [Instr.operandBytes, Shape.read, beWord_hiByte_loByte]⟩
  | _ => exact ⟨_, rfl, fun _ => rfl⟩

/-- The row `sh` stands for instructions whose bytes are `op` and then the operand bytes of its format (R50, R51). -/
def Shape.Encodes (op : Byte) : Shape → Prop
  | .n i => encode i = [op]
  | .a mk => ∀ hi lo, encode (mk (beWord hi lo)) = [op, hi, lo]
  | .rr mk => ∀ rd rs, encode (mk rd rs) = [op, rd, rs]
  | .ra mk => ∀ r hi lo, encode (mk r (beWord hi lo)) = [op, r, hi, lo]
  | .ar mk => ∀ hi lo r, encode (mk (beWord hi lo) r) = [op, hi, lo, r]

theorem encodes_of_row {op : Byte} {sh : Shape} (hrow : opcodeRow op = some sh) : sh.Encodes op := by
  unfold opcodeRow at hrow
  split at hrow <;> cases hrow <;> simp [Shape.Encodes, encode, Instr.opcode, Instr.operandBytes]

/-- What a row reads, encoded, is the opcode byte and the bytes read. -/
theorem encode_of_read {op : Byte} {sh : Shape} {tail rest : List Byte} {i : Instr} (henc : sh.Encodes op)
    (hread : sh.read tail = some (i, rest)) : encode i ++ rest = op :: tail := by
  unfold Shape.read at hread
  split at hread
  case h_1 => cases hread; rw [show encode i = [op] from henc]; rfl
  case h_2 mk hi lo _ => cases hread; rw [henc hi lo]; rfl
  case h_3 mk rd rs _ => cases hread; rw [henc rd rs]; rfl
  case h_4 mk r hi lo _ => cases hread; rw [henc r hi lo]; rfl
  case h_5 mk hi lo r _ => cases hread; rw [henc hi lo r]; rfl
  case h_6 => cases hread

theorem decode_of_row {op : Byte} {sh : Shape} {tail rest : List Byte} {i : Instr} (hrow : opcodeRow op = some sh)
    (hread : sh.read tail = some (i, rest)) : decode (op :: tail) = .ok (i, rest) := by
  simp only [decode, hrow, hread]

theorem decode_of_no_row {op : Byte} (tail : List Byte) (hrow : opcodeRow op = none) :
    decode (op :: tail) = .error (.unknownOpcode op) := by
  simp only [decode, hrow]

/-- All a successful decoding can be: an opcode byte of some row, and what that row reads from the bytes after it. -/
theorem exists_row_of_decode {bytes rest : List Byte} {i : Instr} (h : decode bytes = .ok (i, rest)) :
    ∃ op tail sh, bytes = op :: tail ∧ opcodeRow op = some sh ∧ sh.read tail = some (i, rest) := by
  unfold decode at h
  split at h
  · cases h
  · split at h
    · cases h
    · split at h
      · cases h
      · cases h
        exact ⟨_, _, _, rfl, ‹_›, ‹_›⟩

theorem decode_eq_unknownOpcode_iff (op : Byte) (tail : List Byte) :
    decode (op :: tail) = .error (.unknownOpcode op) ↔ opcodeRow op = none := by
  refine ⟨fun h => ?_, decode_of_no_row tail⟩
  cases hrow : opcodeRow op with
  | none => rfl
  | some sh => cases hread : sh.read tail <;> simp [decode, hrow, hread] at h

theorem decodeInstr_of_decode {bytes rest : List Byte} {i : Instr} (h : decode bytes = .ok (i, rest)) :
    decodeInstr bytes = some i := by
  simp only [decodeInstr, h]

/-! ### Opcodes and rows -/

theorem opcodeRow_eq_none_iff (op : Byte) : opcodeRow op = none ↔ Machine.IllegalOpcode op :=
  Option.isNone_iff_eq_none.symm.trans (opcodeRow_isNone_iff op)

theorem ne_of_no_row {op b : Byte} (hop : opcodeRow op = none) (hb : (opcodeRow b).isSome = true) : op ≠ b := by
  rintro rfl
  exact Option.isSome_iff_ne_none.1 hb hop

/-- An illegal opcode lies above the ranges the tables of 10_state speak of. -/
theorem sixteen_le_of_no_row {op : Byte} (hop : opcodeRow op = none) : 16 ≤ op.toNat :=
  ((opcodeRow_eq_none_iff op).1 hop).1

/-- An opcode of format N is one instruction's alone. -/
theorem opcode_eq_iff_of_row_n {i j : Instr} (hj : opcodeRow j.opcode = some (.n j)) : i.opcode = j.opcode ↔ i = j := by
  refine ⟨fun h => ?_, congrArg Instr.opcode⟩
  obtain ⟨sh, hrow, hread⟩ := exists_row_read_operandBytes i
  obtain rfl : .n j = sh := Option.some.inj (hj.symm.trans (h ▸ hrow))
  exact (congrArg Prod.fst (Option.some.inj (hread []))).symm

/-- The decoder reads from an opcode byte instructions of that opcode only. -/
theorem opcode_of_decodedFrom {w0 w1 w2 w3 : Byte} {i : Instr} (hd : DecodedFrom w0 w1 w2 w3 i) : w0 = i.opcode := by
  cases i with
  | load | store | move | jmp | jmpz | call => exact hd.1
  | _ => exact hd

theorem legal_of_decodedFrom {w0 w1 w2 w3 : Byte} {i : Instr} (hd : DecodedFrom w0 w1 w2 w3 i) :
    ¬ Machine.IllegalOpcode w0 := fun hill =>
  ne_of_no_row ((opcodeRow_eq_none_iff w0).2 hill) (opcodeRow_opcode_isSome i) (opcode_of_decodedFrom hd)

end Sys2Proof
end

section

namespace Sys2Proof

/-- Settles O1: the row of the instruction's own opcode reads its own operand bytes. -/
theorem decodeOfEncode : Obligations.DecodeOfEncode := by
  intro i rest
  obtain ⟨sh, hrow, hread⟩ := exists_row_read_operandBytes i
  exact decode_of_row hrow (hread rest)

/-- Settles O2: each row encodes what it reads, format by format. -/
theorem encodeOfDecode : Obligations.EncodeOfDecode := by
  intro bytes rest i h
  obtain ⟨op, tail, sh, rfl, hrow, hread⟩ := exists_row_of_decode h
  exact encode_of_read (encodes_of_row hrow) hread

/-- Settles O3: the decoder rejects the opcode byte exactly when it is in no row. -/
theorem illegalOpcodesRejected : Obligations.IllegalOpcodesRejected := fun op rest =>
  (decode_eq_unknownOpcode_iff op rest).trans (opcodeRow_eq_none_iff op)

/-- Settles O4: each of the six words, decoded. -/
theorem specWordsDecode : Obligations.SpecWordsDecode := ⟨rfl, rfl, rfl, rfl, rfl, rfl⟩

end Sys2Proof
end

section
/-! The meanings of the ALU, data movement and system instructions (41_alu, 42_data_movement, 44_system) as updates of the
state, case by case, so that no later proof unfolds a meaning. -/

namespace Sys2Proof.Machine

/-- The operation of an ALU instruction on R1 and R2 (R91 to R98); NOT does not look at R2. -/
def aluOp : Instr → Option (Byte → Byte → Byte)
  | .add => some fun a b => a + b
  | .sub => some fun a b => a - b
  | .mul => some fun a b => a * b
  | .div => some fun a b => a.udiv b
  | .and => some fun a b => a &&& b
  | .or => some fun a b => a ||| b
  | .xor => some fun a b => a ^^^ b
  | .not => some fun a _ => ~~~a
  | .load _ _ | .store _ _ | .move _ _ => none
  | .jmp _ | .jmpz _ | .call _ | .ret => none
  | .halt | .syscall => none

theorem aluOp_isSome : ∀ i ∈ [Instr.add, .sub, .mul, .div, .and, .or, .xor, .not], (aluOp i).isSome = true := by
  decide

variable (s : State)

theorem exec_of_aluOp {i : Instr} {f : Byte → Byte → Byte} (hf : aluOp i = some f) (hdiv : i = .div → s.reg 2 ≠ 0#8) :
    exec i s = .next (s.aluResult (f (s.reg 1) (s.reg 2))) := by
  cases i with
  | div => cases hf; rw [exec, execDiv, if_neg (hdiv rfl)]
  | add | sub | mul | and | or | xor | not => cases hf; rfl
  | load | store | move | jmp | jmpz | call | ret | halt | syscall => cases hf

/-- What an ALU instruction that does not fault does, in the terms of the statements (R90). -/
theorem exec_alu_done {i : Instr} {f : Byte → Byte → Byte} (hf : aluOp i = some f) (hdiv : i = .div → s.reg 2 ≠ 0#8) :
    ∃ t, exec i s = .next t ∧ t.reg 0 = f (s.reg 1) (s.reg 2) ∧
      (t.zero = true ↔ f (s.reg 1) (s.reg 2) = 0#8) ∧ AluDone s t := by
  obtain ⟨hval, hdone⟩ := aluResult_done s (f (s.reg 1) (s.reg 2))
  have ⟨hzero, _⟩ := hdone
  exact ⟨_, exec_of_aluOp s hf hdiv, hval, hzero.trans (by rw [hval]), hdone⟩

theorem exec_div_by_zero (hz : s.reg 2 = 0#8) :
    exec .div s = .next ((s.advance 1).raise .divisionByZero s.pc 0x03#8) := by
  rw [exec, execDiv, if_pos hz]

theorem exec_load {b : Byte} {r : Reg} (addr : Addr) (hb : b.toNat = r.val) :
    exec (.load b addr) s = .next ((s.advance 4).setReg r (s.readMem addr)) := by
  rw [exec, execLoad, regIndex_of_toNat hb]
  rfl

theorem exec_load_bad {b : Byte} (addr : Addr) (hb : 8 ≤ b.toNat) :
    exec (.load b addr) s = .next ((s.advance 4).raise .addressingFault s.pc 0x08#8) := by
  rw [exec, execLoad, regIndex_of_ge hb]

theorem exec_store {b : Byte} {r : Reg} (addr : Addr) (hb : b.toNat = r.val) :
    exec (.store addr b) s = .next ((s.advance 4).writeMem addr (s.reg r)) := by
  rw [exec, execStore, regIndex_of_toNat hb]
  rfl

theorem exec_store_bad {b : Byte} (addr : Addr) (hb : 8 ≤ b.toNat) :
    exec (.store addr b) s = .next ((s.advance 4).raise .addressingFault s.pc 0x09#8) := by
  rw [exec, execStore, regIndex_of_ge hb]

theorem exec_move {bd bs : Byte} {d x : Reg} (hd : bd.toNat = d.val) (hx : bs.toNat = x.val) :
    exec (.move bd bs) s = .next ((s.advance 3).setReg d (s.reg x)) := by
  simp only [exec, execMove, regIndex_of_toNat hd, regIndex_of_toNat hx]

theorem exec_move_bad {bd bs : Byte} (hb : 8 ≤ bd.toNat ∨ 8 ≤ bs.toNat) :
    exec (.move bd bs) s = .next ((s.advance 3).raise .addressingFault s.pc 0x0A#8) := by
  rcases hb with hd | hx
  · simp only [exec, execMove, regIndex_of_ge hd]
  · rw [exec, execMove, regIndex_of_ge hx]
    cases regIndex bd <;> rfl

theorem exec_halt : exec .halt s = .next ((s.advance 1).setRun .halted) := rfl

theorem exec_syscall : exec .syscall s = .next ((s.advance 1).raise .notImplemented s.pc 0xA0#8) := rfl

/-! ### What the register bytes select (R53, R73) -/

theorem regIndex_eq_some_iff (b : Byte) (r : Reg) : regIndex b = some r ↔ r.val = b.toNat := by
  refine ⟨fun h => ?_, fun h => regIndex_of_toNat h.symm⟩
  rcases regIndex_cases b with ⟨q, hq, hi⟩ | ⟨-, hi⟩
  · rw [← Option.some.inj (hi.symm.trans h), hq]
  · cases hi.symm.trans h

theorem regIndex_eq_none_iff (b : Byte) : regIndex b = none ↔ 8 ≤ b.toNat := by
  refine ⟨fun h => ?_, regIndex_of_ge⟩
  rcases regIndex_cases b with ⟨q, -, hi⟩ | ⟨hb, -⟩
  · cases hi.symm.trans h
  · exact hb

theorem legalRegByte_iff (b : Byte) : legalRegByte b = true ↔ ∃ r : Reg, b.toNat = r.val := by
  rw [legalRegByte, decide_eq_true_iff]
  exact ⟨fun h => ⟨⟨b.toNat, h⟩, rfl⟩, fun ⟨r, hr⟩ => hr ▸ r.isLt⟩

theorem legalRegByte_eq_false_iff (b : Byte) : legalRegByte b = false ↔ 8 ≤ b.toNat := by
  rw [legalRegByte, decide_eq_false_iff_not, Nat.not_lt]

/-- MOVE's two bytes both select a register, or one of them selects none. -/
theorem regBytes_cases (bd bs : Byte) :
    (∃ d x : Reg, bd.toNat = d.val ∧ bs.toNat = x.val) ∨ (8 ≤ bd.toNat ∨ 8 ≤ bs.toNat) := by
  rcases regIndex_cases bd with ⟨d, hd, -⟩ | ⟨hd, -⟩
  · rcases regIndex_cases bs with ⟨x, hx, -⟩ | ⟨hx, -⟩
    · exact .inl ⟨d, x, hd, hx⟩
    · exact .inr (.inr hx)
  · exact .inr (.inl hd)

/-- Which of the four bytes at PC make the instruction ill-formed (R53, R57). -/
theorem wellFormed_eq_false_iff_of_decodedFrom {w0 w1 w2 w3 : Byte} {i : Instr} (hd : DecodedFrom w0 w1 w2 w3 i) :
    i.wellFormed = false ↔ (w0 = 0x08#8 ∧ 8 ≤ w1.toNat) ∨ (w0 = 0x09#8 ∧ 8 ≤ w3.toNat) ∨
      (w0 = 0x0A#8 ∧ (8 ≤ w1.toNat ∨ 8 ≤ w2.toNat)) := by
  cases i with
  | load => obtain ⟨rfl, rfl, -⟩ := hd; simp [Instr.wellFormed, legalRegByte_eq_false_iff]
  | store => obtain ⟨rfl, -, rfl⟩ := hd; simp [Instr.wellFormed, legalRegByte_eq_false_iff]
  | move =>
    obtain ⟨rfl, rfl, rfl⟩ := hd
    rw [Instr.wellFormed, Bool.and_eq_false_iff, legalRegByte_eq_false_iff, legalRegByte_eq_false_iff]
    simp
  | _ => rw [opcode_of_decodedFrom hd]; simp [Instr.wellFormed, Instr.opcode]

/-! ### The run state after a meaning -/

/-- The run state an instruction leaves: only HALT, SYSCALL, a DIV by zero and an illegal register byte change it (R140). -/
def runAfter (s : State) (i : Instr) : RunState :=
  if i = .halt then .halted
  else if i = .syscall then .faulted .notImplemented
  else if i = .div ∧ s.reg 2 = 0#8 then .faulted .divisionByZero
  else if i.wellFormed = false then .faulted .addressingFault
  else s.run

theorem runAfter_of_not_wellFormed (i : Instr) (hw : i.wellFormed = false) :
    runAfter s i = .faulted .addressingFault := by
  unfold runAfter
  split_ifs <;> simp_all [Instr.wellFormed]

theorem runAfter_of_wellFormed (i : Instr) (hw : i.wellFormed = true) (hhalt : i ≠ .halt) (hsys : i ≠ .syscall)
    (hdiv : i = .div → s.reg 2 ≠ 0#8) : runAfter s i = s.run := by
  have hdiv' : ¬ (i = .div ∧ s.reg 2 = 0#8) := fun ⟨hi, hz⟩ => hdiv hi hz
  rw [runAfter, if_neg hhalt, if_neg hsys, if_neg hdiv', if_neg (ne_false_of_eq_true hw)]

/-- Every meaning answers a next state, whose run state is `runAfter`. -/
theorem exec_runAfter (i : Instr) : ∃ t, exec i s = .next t ∧ t.run = runAfter s i := by
  cases i with
  | div =>
    by_cases hz : s.reg 2 = 0#8
    · exact ⟨_, exec_div_by_zero s hz, by simp [runAfter, hz]⟩
    · exact ⟨_, exec_of_aluOp s rfl fun _ => hz, (runAfter_of_wellFormed s .div rfl nofun nofun fun _ => hz).symm⟩
  | load b addr =>
    cases hw : legalRegByte b with
    | true =>
      obtain ⟨r, hr⟩ := (legalRegByte_iff b).1 hw
      exact ⟨_, exec_load s addr hr, (runAfter_of_wellFormed s (.load b addr) hw nofun nofun nofun).symm⟩
    | false =>
      have hb := (legalRegByte_eq_false_iff b).1 hw
      exact ⟨_, exec_load_bad s addr hb, (runAfter_of_not_wellFormed s (.load b addr) hw).symm⟩
  | store addr b =>
    cases hw : legalRegByte b with
    | true =>
      obtain ⟨r, hr⟩ := (legalRegByte_iff b).1 hw
      exact ⟨_, exec_store s addr hr, (runAfter_of_wellFormed s (.store addr b) hw nofun nofun nofun).symm⟩
    | false =>
      have hb := (legalRegByte_eq_false_iff b).1 hw
      exact ⟨_, exec_store_bad s addr hb, (runAfter_of_not_wellFormed s (.store addr b) hw).symm⟩
  | move bd bs =>
    cases hw : legalRegByte bd && legalRegByte bs with
    | true =>
      obtain ⟨hd, hx⟩ := Bool.and_eq_true_iff.1 hw
      obtain ⟨d, hd⟩ := (legalRegByte_iff bd).1 hd
      obtain ⟨x, hx⟩ := (legalRegByte_iff bs).1 hx
      exact ⟨_, exec_move s hd hx, (runAfter_of_wellFormed s (.move bd bs) hw nofun nofun nofun).symm⟩
    | false =>
      have hb := (Bool.and_eq_false_iff.1 hw).imp (legalRegByte_eq_false_iff bd).1 (legalRegByte_eq_false_iff bs).1
      exact ⟨_, exec_move_bad s hb, (runAfter_of_not_wellFormed s (.move bd bs) hw).symm⟩
  | jmpz addr =>
    cases hz : s.zero with
    | true => exact ⟨_, exec_jmpz_taken s addr hz, rfl⟩
    | false => exact ⟨_, exec_jmpz_notTaken s addr hz, rfl⟩
  | add | sub | mul | and | or | xor | not | jmp | call | ret | halt | syscall => exact ⟨_, rfl, rfl⟩

theorem run_of_exec {i : Instr} {t : State} (h : exec i s = .next t) : t.run = runAfter s i := by
  obtain ⟨t', ht', hrun⟩ := exec_runAfter s i
  exact Host.Outcome.next.inj (h.symm.trans ht') ▸ hrun

theorem exec_next (i : Instr) : ∃ t, exec i s = .next t := (exec_runAfter s i).imp fun _ h => h.1

theorem runAfter_eq_addressingFault_iff {s : State} (hs : s.run ≠ .faulted .addressingFault) (i : Instr) :
    runAfter s i = .faulted .addressingFault ↔ i.wellFormed = false := by
  unfold runAfter
  split_ifs <;> simp_all [Instr.wellFormed]

section

variable {s : State} (hrun : s.run = .running) (i : Instr)
include hrun

theorem runAfter_ne_decodeFault : runAfter s i ≠ .faulted .decodeFault := by
  unfold runAfter
  split_ifs <;> simp [hrun]

theorem runAfter_eq_halted_iff : runAfter s i = .halted ↔ i = .halt := by
  unfold runAfter
  split_ifs <;> simp_all

theorem runAfter_eq_notImplemented_iff : runAfter s i = .faulted .notImplemented ↔ i = .syscall := by
  unfold runAfter
  split_ifs <;> simp_all

theorem runAfter_eq_divisionByZero_iff : runAfter s i = .faulted .divisionByZero ↔ i = .div ∧ s.reg 2 = 0#8 := by
  unfold runAfter
  split_ifs <;> simp_all

end

end Sys2Proof.Machine
end

section
/-! The ALU instructions: `exec_alu_done` at each operation, with what that operation's value and zero are. -/

namespace Sys2Proof.Machine

/-- Settles O17: the sum modulo 256. -/
theorem addWritesSumModulo256 : Obligations.AddWritesSumModulo256 := by
  refine ⟨rfl, fun s => ?_⟩
  obtain ⟨t, ht, hval, -, hdone⟩ := exec_alu_done s (i := .add) rfl nofun
  exact ⟨t, ht, hval ▸ BitVec.toNat_add _ _, hdone⟩

/-- Settles O18: the difference modulo 256, which is 0 only of equal operands. -/
theorem subWritesDifferenceModulo256 : Obligations.SubWritesDifferenceModulo256 := by
  refine ⟨rfl, fun s => ?_⟩
  obtain ⟨t, ht, hval, hzero, hdone⟩ := exec_alu_done s (i := .sub) rfl nofun
  refine ⟨t, ht, ?_, hzero.trans ?_, hdone⟩
  · rw [hval, BitVec.toNat_sub]
    omega
  · bv_omega

/-- Settles O19: the product modulo 256. -/
theorem mulWritesLowByteOfProduct : Obligations.MulWritesLowByteOfProduct := by
  refine ⟨rfl, fun s => ?_⟩
  obtain ⟨t, ht, hval, -, hdone⟩ := exec_alu_done s (i := .mul) rfl nofun
  exact ⟨t, ht, hval ▸ BitVec.toNat_mul _ _, hdone⟩

/-- Settles O20: the truncated quotient, which is 0 exactly under a larger divisor. -/
theorem divWritesTruncatedQuotient : Obligations.DivWritesTruncatedQuotient := by
  refine ⟨rfl, fun s hne => ?_⟩
  obtain ⟨t, ht, hval, hzero, hdone⟩ := exec_alu_done s (i := .div) rfl fun _ => hne
  have hquot : (t.reg 0).toNat = (s.reg 1).toNat / (s.reg 2).toNat := hval ▸ BitVec.toNat_udiv
  have hpos : (s.reg 2).toNat ≠ 0 := fun h => hne (BitVec.eq_of_toNat_eq h)
  refine ⟨t, ht, hquot, ?_, hdone⟩
  rw [hzero, ← hval, ← BitVec.toNat_inj, hquot]
  exact Nat.div_eq_zero_iff_lt (Nat.pos_of_ne_zero hpos)

/-- Settles O21: the arm of DIV that does not divide. -/
theorem divByZeroFaults : Obligations.DivByZeroFaults := fun s hz =>
  ⟨_, exec_div_by_zero s hz, raise_faultTaken s .divisionByZero 0x03#8 1⟩

theorem byte_eq_zero_iff (b : Byte) : b = 0#8 ↔ ∀ k, k < 8 → b.getLsbD k = false :=
  ⟨fun h _ _ => h ▸ BitVec.getLsbD_zero, fun h => BitVec.eq_of_getLsbD_eq fun k hk => by
    rw [h k hk, BitVec.getLsbD_zero]⟩

/-- Settles O22: the bitwise AND, which is 0 when it is so bit by bit. -/
theorem andIsBitwise : Obligations.AndIsBitwise := by
  refine ⟨rfl, fun s => ?_⟩
  obtain ⟨t, ht, hval, hzero, hdone⟩ := exec_alu_done s (i := .and) rfl nofun
  refine ⟨t, ht, fun k _ => hval ▸ BitVec.getLsbD_and, ?_, hdone⟩
  rw [hzero, byte_eq_zero_iff]
  simp only [BitVec.getLsbD_and, Bool.and_eq_false_imp, not_and, Bool.not_eq_true]

/-- Settles O23: the bitwise OR, which is 0 only of two zeros. -/
theorem orIsBitwise : Obligations.OrIsBitwise := by
  refine ⟨rfl, fun s => ?_⟩
  obtain ⟨t, ht, hval, hzero, hdone⟩ := exec_alu_done s (i := .or) rfl nofun
  exact ⟨t, ht, fun k _ => hval ▸ BitVec.getLsbD_or, hzero.trans BitVec.or_eq_zero_iff, hdone⟩

/-- Settles O24: the bitwise exclusive OR, which is 0 only of equal operands. -/
theorem xorIsBitwise : Obligations.XorIsBitwise := by
  refine ⟨rfl, fun s => ?_⟩
  obtain ⟨t, ht, hval, hzero, hdone⟩ := exec_alu_done s (i := .xor) rfl nofun
  exact ⟨t, ht, fun k _ => hval ▸ BitVec.getLsbD_xor, hzero.trans BitVec.xor_eq_zero_iff, hdone⟩

/-- Settles O25: the complement, which is 0 only of 0xFF. -/
theorem notComplementsR1 : Obligations.NotComplementsR1 := by
  refine ⟨rfl, fun s => ?_⟩
  obtain ⟨t, ht, hval, hzero, hdone⟩ := exec_alu_done s (i := .not) rfl nofun
  refine ⟨t, ht, ?_, fun k hk => ?_, hzero.trans ?_, hdone⟩
  · rw [hval, BitVec.toNat_not]
  · rw [hval, BitVec.getLsbD_not, decide_eq_true hk, Bool.true_and]
  · bv_omega

/-- Settles O26: both results are one operation's, of operands that agree as far as it looks at them. -/
theorem aluDependsOnlyOnR1AndR2 : Obligations.AluDependsOnlyOnR1AndR2 := by
  intro i hi s s' t t' ht ht' h1 h2 hdiv
  obtain ⟨f, hf⟩ := Option.isSome_iff_exists.1 (aluOp_isSome i hi)
  have hval : f (s.reg 1) (s.reg 2) = f (s'.reg 1) (s'.reg 2) := by
    by_cases hn : i = .not
    · subst hn
      cases hf
      exact congrArg (fun b => ~~~b) h1
    · rw [h1, h2 hn]
  have hdiv' : i = .div → s'.reg 2 ≠ 0#8 := fun hi => h2 (hi ▸ nofun) ▸ hdiv hi
  obtain rfl := Host.Outcome.next.inj ((exec_of_aluOp s hf hdiv).symm.trans ht)
  obtain rfl := Host.Outcome.next.inj ((exec_of_aluOp s' hf hdiv').symm.trans ht')
  rw [hval]
  exact ⟨(aluResult_done s _).1.trans (aluResult_done s' _).1.symm, (zero_setZ _ _).trans (zero_setZ _ _).symm⟩

end Sys2Proof.Machine
end

section
/-! One step of the machine, by its run state and what lies at PC (40_execution_cycle R70). -/

namespace Sys2Proof.Machine

theorem step_terminal {s : State} (h : s.Terminal) : step s = .refused .terminalState := by
  unfold step
  split
  · exact absurd ‹s.run = .running› h
  · rfl
  · rfl

theorem step_of_decodeInstr {s : State} {i : Instr} (hrun : s.run = .running) (hi : decodeInstr s.window = some i) :
    step s = exec i s := by
  rw [step_running hrun, hi]

theorem step_of_decode {s : State} {i : Instr} {rest : List Byte} (hrun : s.run = .running)
    (hi : decode s.window = .ok (i, rest)) : step s = exec i s :=
  step_of_decodeInstr hrun (decodeInstr_of_decode hi)

/-- An opcode of format N is run whatever bytes follow it. -/
theorem step_of_row_n {s : State} {i : Instr} (hrun : s.run = .running) (hrow : opcodeRow s.nextOpcode = some (.n i)) :
    step s = exec i s :=
  step_of_decode hrun (decode_of_row hrow rfl)

theorem step_of_not_decoded {s : State} (hrun : s.run = .running) (hd : decodeInstr s.window = none) :
    step s = .next (s.decodeFault s.nextOpcode) := by
  rw [step_running hrun, hd]

theorem window_eq_cons (s : State) :
    s.window = s.nextOpcode :: [s.readMem (s.pc + 1#16), s.readMem (s.pc + 2#16), s.readMem (s.pc + 3#16)] := rfl

theorem step_of_no_row {s : State} (hrun : s.run = .running) (hrow : opcodeRow s.nextOpcode = none) :
    step s = .next (s.decodeFault s.nextOpcode) := by
  refine step_of_not_decoded hrun ?_
  rw [decodeInstr, window_eq_cons, decode_of_no_row _ hrow]

theorem step_next {s : State} (hrun : s.run = .running) : ∃ t, step s = .next t := by
  cases hd : decodeInstr s.window with
  | some i => exact step_of_decodeInstr hrun hd ▸ exec_next s i
  | none => exact ⟨_, step_of_not_decoded hrun hd⟩

/-- The window at the instruction after a four-byte one, where the byte written lies outside it. -/
theorem window_advance_writeMem (s : State) {addr : Addr} (v : Byte)
    (h : addr ∉ [s.pc + 4#16, s.pc + 5#16, s.pc + 6#16, s.pc + 7#16]) :
    ((s.advance 4).writeMem addr v).window =
      [s.readMem (s.pc + 4#16), s.readMem (s.pc + 5#16), s.readMem (s.pc + 6#16), s.readMem (s.pc + 7#16)] := by
  obtain ⟨h4, h5, h6, h7⟩ : addr ≠ s.pc + 4#16 ∧ addr ≠ s.pc + 5#16 ∧ addr ≠ s.pc + 6#16 ∧ addr ≠ s.pc + 7#16 := by
    simpa using h
  have e5 : s.pc + 4#16 + 1#16 = s.pc + 5#16 := BitVec.add_assoc s.pc 4#16 1#16
  have e6 : s.pc + 4#16 + 2#16 = s.pc + 6#16 := BitVec.add_assoc s.pc 4#16 2#16
  have e7 : s.pc + 4#16 + 3#16 = s.pc + 7#16 := BitVec.add_assoc s.pc 4#16 3#16
  simp only [State.window, writeMem_pc, advance_pc, e5, e6, e7, readMem_advance,
    readMem_writeMem_of_ne _ _ _ h4, readMem_writeMem_of_ne _ _ _ h5, readMem_writeMem_of_ne _ _ _ h6,
    readMem_writeMem_of_ne _ _ _ h7]

end Sys2Proof.Machine
end

section
/-! Data movement, system instructions and the register bytes. -/

namespace Sys2Proof.Machine

/-- Settles O27: a register write after the advance. -/
theorem loadMovesByteToRegister : Obligations.LoadMovesByteToRegister :=
  ⟨fun _ _ => rfl, fun s _ r addr hb => ⟨_, exec_load s addr hb, reg_setReg_same _ r _,
    fun q hq => (reg_setReg _ r q _).trans (if_neg hq.symm), advance_pc_toNat s 4, rfl, rfl, fun _ => rfl, rfl, rfl, rfl⟩⟩

/-- Settles O28: a memory write after the advance. -/
theorem storeMovesByteToMemory : Obligations.StoreMovesByteToMemory :=
  ⟨fun _ _ => rfl, fun s _ _ addr hb => ⟨_, exec_store s addr hb, readMem_writeMem_same _ addr _,
    sameMemBut_writeMem (s.advance 4) addr _, fun _ => rfl, advance_pc_toNat s 4, rfl, rfl, rfl, rfl, rfl⟩⟩

/-- Settles O29: a register write after the advance. -/
theorem moveCopiesRegister : Obligations.MoveCopiesRegister :=
  ⟨fun _ _ => rfl, fun s _ _ d _ hd hx => ⟨_, exec_move s hd hx, reg_setReg_same _ d _,
    fun q hq => (reg_setReg _ d q _).trans (if_neg hq.symm), advance_pc_toNat s 3, rfl, rfl, fun _ => rfl, rfl, rfl, rfl⟩⟩

/-- Settles O30: the arms of LOAD, STORE and MOVE where a byte selects no register. -/
theorem badRegisterByteFaults : Obligations.BadRegisterByteFaults :=
  ⟨fun s _ addr hb => ⟨_, exec_load_bad s addr hb, raise_faultTaken s .addressingFault 0x08#8 4⟩,
    fun s _ addr hb => ⟨_, exec_store_bad s addr hb, raise_faultTaken s .addressingFault 0x09#8 4⟩,
    fun s _ _ hb => ⟨_, exec_move_bad s hb, raise_faultTaken s .addressingFault 0x0A#8 3⟩⟩

/-- Settles O37: HALT is the advance with the run state Halted, which is terminal. -/
theorem haltEndsTheRun : Obligations.HaltEndsTheRun :=
  ⟨rfl, fun s => ⟨_, exec_halt s, rfl, advance_pc_toNat s 1, fun _ => rfl, rfl, rfl, fun _ => rfl, rfl, rfl,
    step_terminal (nofun : RunState.halted ≠ .running)⟩⟩

/-- Settles O38: SYSCALL is its fault. -/
theorem syscallFaults : Obligations.SyscallFaults :=
  ⟨rfl, fun s => ⟨_, exec_syscall s, raise_faultTaken s .notImplemented 0xA0#8 1⟩⟩

/-- Settles O8: `runAfter` is an AddressingFault that was not there before exactly on an ill-formed instruction. -/
theorem regIndexChecksExactlyRegisterOperands : Obligations.RegIndexChecksExactlyRegisterOperands := by
  refine ⟨regIndex_eq_some_iff, regIndex_eq_none_iff, fun i s t hs h => ?_⟩
  rw [run_of_exec s h]
  exact runAfter_eq_addressingFault_iff hs i

/-- Settles O52: of the branches of `runAfter` only HALT's and the last, which keeps the run state, are left. -/
theorem wellFormedInstrDoesNotFault : Obligations.WellFormedInstrDoesNotFault := by
  intro i s hw hsys hdiv hrun
  obtain ⟨t, ht, htrun⟩ := exec_runAfter s i
  refine ⟨t, ht, ?_⟩
  by_cases hhalt : i = .halt
  · exact .inr ⟨hhalt, htrun.trans ((runAfter_eq_halted_iff hrun i).2 hhalt)⟩
  · exact .inl (htrun.trans ((runAfter_of_wellFormed s i hw hhalt hsys hdiv).trans hrun))

end Sys2Proof.Machine
end

section
/-! The step: what it runs, and two steps after one another. -/

namespace Sys2Proof.Machine

/-- Settles O5: the step decodes the window. -/
theorem stepRunsDecodedInstr : Obligations.StepRunsDecodedInstr := fun _ _ _ hrun hi => step_of_decode hrun hi

/-- Settles O41: the step looks at the run state first. -/
theorem terminalStatesTakeNoStep : Obligations.TerminalStatesTakeNoStep := fun _ h => step_terminal h

/-- Settles O40: every meaning answers a next state, and so does the step's own DecodeFault. -/
theorem runningAlwaysSteps : Obligations.RunningAlwaysSteps := fun _ hrun => step_next hrun

/-- Settles O39: an illegal opcode is in no row, and the step takes DecodeFault itself. -/
theorem illegalOpcodeFaults : Obligations.IllegalOpcodeFaults := fun s hrun hill =>
  ⟨_, step_of_no_row hrun ((opcodeRow_eq_none_iff _).2 hill), decodeFault_faultTaken s s.nextOpcode⟩

/-- Settles O53: the placed word is the window of a Running machine. -/
theorem placedInstructionRunsNext : Obligations.PlacedInstructionRunsNext := fun s nbits w _ hi =>
  step_of_decodeInstr (setRun_run _ _) ((congrArg decodeInstr (window_withFetchWord s nbits w)).trans hi)

/-- Settles O56: the decoder and the fetches both read the window; the fetches' addresses `(pc + m) + n` are the window's
`pc + (m + n)`, also where PC wraps. -/
theorem operandsAreFetchedInEncodingOrder : Obligations.OperandsAreFetchedInEncodingOrder := by
  intro s
  have hop {op : Byte} (h : s.nextOpcode = op) : decodeInstr s.fetchInstrBytes =
      decodeInstr [op, s.readMem (s.pc + 1#16), s.readMem (s.pc + 2#16), s.readMem (s.pc + 3#16)] := by
    rw [decodeInstr_fetchInstrBytes, ← h, window_eq_cons]
  have e2 : s.pc + 1#16 + 1#16 = s.pc + 2#16 := BitVec.add_assoc s.pc 1#16 1#16
  have e3 : s.pc + 2#16 + 1#16 = s.pc + 3#16 := BitVec.add_assoc s.pc 2#16 1#16
  have e3' : s.pc + 1#16 + 2#16 = s.pc + 3#16 := BitVec.add_assoc s.pc 1#16 2#16
  simp only [fetchByte_state, fetchByte_value, fetchWord_value, fetchWord_state, readMem_advance, advance_pc, e2, e3, e3']
  exact ⟨hop, hop, hop, hop, hop, hop⟩

/-- Settles O31: the STORE leaves the four bytes of the LOAD alone, so the second step decodes it, and it reads the byte
stored. -/
theorem storeThenLoadReturnsTheByte : Obligations.StoreThenLoadReturnsTheByte := by
  intro s t b b' r r' addr rest rest' hrun hb hb' hstore hload haddr hst
  rw [step_of_decode hrun hstore, exec_store s addr hb] at hst
  have ht : (s.advance 4).writeMem addr (s.reg r) = t := Host.Outcome.next.inj hst
  have hrun' : t.run = .running := ht ▸ hrun
  have hload' : decode t.window = .ok (.load b' addr, rest') := by
    rw [← ht, window_advance_writeMem s _ haddr, hload]
  refine ⟨_, (step_of_decode hrun' hload').trans (exec_load t addr hb'), ?_⟩
  rw [reg_setReg_same, ← ht, readMem_writeMem_same]

/-- Settles O50: the byte stored at PC + 4 is the opcode byte at the new PC, and a HALT needs no other byte. -/
theorem storeSeenByTheNextFetch : Obligations.StoreSeenByTheNextFetch := by
  intro s t b r rest hrun hb hstore hst
  rw [step_of_decode hrun hstore, exec_store s _ hb] at hst
  have ht : (s.advance 4).writeMem (s.pc + 4#16) (s.reg r) = t := Host.Outcome.next.inj hst
  have hop : t.nextOpcode = s.reg r := ht ▸ readMem_writeMem_same _ _ _
  have hrun' : t.run = .running := ht ▸ hrun
  refine ⟨hop, fun hr => ⟨_, (step_of_row_n hrun' ?_).trans (exec_halt t), rfl⟩⟩
  rw [hop, hr]
  rfl

/-- Settles O36: the CALL leaves the RET's byte alone, so the second step is a RET, and it pops what the CALL pushed. -/
theorem callThenRetReturns : Obligations.CallThenRetReturns := by
  intro s t addr rest hrun hcall hret haddr hst
  rw [step_of_decode hrun hcall, exec_call] at hst
  have ht : (s.pushWord (s.advance 3).pc).setPc addr = t := Host.Outcome.next.inj hst
  have hrun' : t.run = .running := ht ▸ hrun
  have hop : t.nextOpcode = 0x0E#8 := by
    rw [← ht, ← hret]
    exact sameMemBut_pushWord s _ addr haddr
  have htop : t.stackTop = (s.advance 3).pc := ht ▸ stackTop_pushWord s _
  refine ⟨_, (step_of_row_n hrun' (hop ▸ rfl)).trans (exec_ret t), ?_, ?_, fun _ => ht ▸ rfl, ht ▸ rfl⟩
  · rw [setPc_pc, htop, advance_pc_toNat]
  · rw [setPc_sp, setSp_sp, ← ht, setPc_sp, pushWord_sp, BitVec.sub_add_cancel]

end Sys2Proof.Machine
end

section
/-! Canonical memory is determined by its reads; the start of a run (20_memory R42, 70_reset_and_hazards R160); the stack. -/

namespace Sys2Proof.Machine

/-- What the canonical form says of the first entry and of the rest. -/
theorem wfFrom_cons_iff {lo k : Nat} {b : Byte} {m : Mem} : Mem.wfFrom lo ((k, b) :: m) = true ↔
    lo ≤ k ∧ k < Config.memSize ∧ b ≠ Config.unlistedByte ∧ Mem.wfFrom (k + 1) m = true := by
  simp only [Mem.wfFrom, Bool.and_eq_true, decide_eq_true_eq, and_assoc]

theorem read_cons_same (k : Nat) (b : Byte) (m : Mem) : Mem.read ((k, b) :: m) k = b := if_pos rfl

theorem read_cons_of_ne {k a : Nat} (b : Byte) (m : Mem) (h : k ≠ a) : Mem.read ((k, b) :: m) a = Mem.read m a := if_neg h

theorem read_of_lt {m : Mem} {lo a : Nat} (hm : Mem.wfFrom lo m = true) (h : a < lo) :
    Mem.read m a = Config.unlistedByte := by
  induction m generalizing lo with
  | nil => rfl
  | cons e m ih =>
    obtain ⟨k, b⟩ := e
    obtain ⟨hk, -, -, hm⟩ := wfFrom_cons_iff.1 hm
    rw [read_cons_of_ne b m (by omega), ih hm (by omega)]

/-- A canonical memory's first address is not below the addresses of a canonical memory that reads alike. -/
theorem not_lt_of_read_eq {lo k k' : Nat} {b : Byte} {m n : Mem} (hm : Mem.wfFrom lo ((k, b) :: m) = true)
    (hn : Mem.wfFrom k' n = true) (hread : ∀ a, a < Config.memSize → Mem.read ((k, b) :: m) a = Mem.read n a) :
    ¬ k < k' := by
  intro hlt
  obtain ⟨-, hk, hb, -⟩ := wfFrom_cons_iff.1 hm
  exact hb (by rw [← read_cons_same k b m, hread k hk, read_of_lt hn hlt])

theorem eq_of_read_eq {lo : Nat} {m n : Mem} (hm : Mem.wfFrom lo m = true) (hn : Mem.wfFrom lo n = true)
    (hread : ∀ a, a < Config.memSize → Mem.read m a = Mem.read n a) : m = n := by
  induction m generalizing lo n with
  | nil =>
    cases n with
    | nil => rfl
    | cons e n =>
      obtain ⟨k, b⟩ := e
      obtain ⟨-, hk, hb, -⟩ := wfFrom_cons_iff.1 hn
      exact absurd ((read_cons_same k b n).symm.trans (hread k hk).symm) hb
  | cons e m ih =>
    obtain ⟨k, b⟩ := e
    obtain ⟨-, hk, hb, hm'⟩ := wfFrom_cons_iff.1 hm
    cases n with
    | nil => exact absurd ((read_cons_same k b m).symm.trans (hread k hk)) hb
    | cons e n =>
      obtain ⟨k', b'⟩ := e
      obtain ⟨-, hk', hb', hn'⟩ := wfFrom_cons_iff.1 hn
      obtain rfl : k = k' := by
        have h1 := not_lt_of_read_eq hm (wfFrom_cons_iff.2 ⟨le_refl k', hk', hb', hn'⟩) hread
        have h2 := not_lt_of_read_eq hn (wfFrom_cons_iff.2 ⟨le_refl k, hk, hb, hm'⟩) fun a ha => (hread a ha).symm
        omega
      obtain rfl : b = b' := by
        rw [← read_cons_same k b m, hread k hk, read_cons_same]
      rw [ih hm' hn' fun a ha => ?_]
      by_cases hak : a < k + 1
      · rw [read_of_lt hm' hak, read_of_lt hn' hak]
      · rw [← read_cons_of_ne b m (by omega : k ≠ a), hread a ha, read_cons_of_ne b n (by omega)]

/-! ### The start of a run -/

theorem boot_of_size {image : List Byte} (h : image.length = Config.memSize) :
    boot image = .next { State.reset with mem := Mem.ofBytes 0 image } := if_pos h

theorem boot_of_other_size {image : List Byte} (h : image.length ≠ Config.memSize) :
    boot image = .refused .imageSize := if_neg h

theorem wf_ofBytes {image : List Byte} (h : image.length = Config.memSize) : Mem.wf (Mem.ofBytes 0 image) = true :=
  wfFrom_ofBytes image (le_refl 0) (by omega)

theorem getElem?_image {image : List Byte} (h : image.length = Config.memSize) (a : Addr) :
    image[a.toNat]? = some (Mem.read (Mem.ofBytes 0 image) a.toNat) := by
  have ha : a.toNat < image.length := h ▸ a.isLt
  rw [List.getElem?_eq_getElem ha, ← read_ofBytes image 0 a.toNat ha, Nat.zero_add]

theorem reg_reset (r : Reg) : State.reset.reg r = 0x00#8 := Vector.getElem_replicate r.isLt

theorem inv_of_running {s : State} (hmem : Mem.wf s.mem = true) (hsr : s.sr &&& 0xFE#8 = 0#8) (hrun : s.run = .running)
    (hpc : s.faultPc = 0#16) (hop : s.faultOpcode = 0#8) : s.Inv where
  memWf := hmem
  srUpper := hsr
  recordBlank _ := ⟨hpc, hop⟩
  recordTrue _ h := nomatch hrun.symm.trans h
  explained _ h := nomatch hrun.symm.trans h

theorem inv_reset : State.reset.Inv := inv_of_running wf_reset rfl rfl rfl rfl

theorem inv_of_boot {image : List Byte} {s : State} (h : boot image = .next s) : s.Inv := by
  by_cases hsize : image.length = Config.memSize
  · rw [boot_of_size hsize] at h
    rw [← Host.Outcome.next.inj h]
    exact inv_of_running (wf_ofBytes hsize) inv_reset.srUpper rfl rfl rfl
  · rw [boot_of_other_size hsize] at h
    cases h

/-! ### The stack -/

theorem readMem_push_same (s : State) (v : Byte) : (s.push v).readMem (s.sp - 1#16) = v := by
  rw [readMem_push, if_pos rfl]

theorem sameMemBut_push (s : State) (v : Byte) : SameMemBut [s.sp - 1#16] s (s.push v) := fun c hc => by
  rw [readMem_push, if_neg (List.ne_of_not_mem_cons hc).symm]

end Sys2Proof.Machine
end

section

namespace Sys2Proof.Machine

/-- Settles O11: entry by entry, since a memory would otherwise read as unlisted where the other lists a byte. -/
theorem canonicalMemoryIsDeterminedByReads : Obligations.CanonicalMemoryIsDeterminedByReads := by
  intro m n hm hn hread
  refine eq_of_read_eq hm hn fun a ha => ?_
  have h := hread (BitVec.ofNat 16 a)
  rwa [BitVec.toNat_ofNat, Nat.mod_eq_of_lt (show a < 2 ^ 16 from ha)] at h

/-- Settles O12: a layout of 65536 bytes reads as the image and is in canonical form; the rest is reset's. -/
theorem bootLoadsTheImage : Obligations.BootLoadsTheImage := fun _ h =>
  ⟨_, boot_of_size h, getElem?_image h, wf_ofBytes h, fun _ => rfl, rfl, rfl, rfl, rfl, rfl, rfl⟩

/-- Settles O13: the size is all `boot` looks at. -/
theorem bootRefusesOtherSizes : Obligations.BootRefusesOtherSizes := fun _ h => boot_of_other_size h

/-- Settles O14: the fields of `State.reset`, and the unlisted byte for all of memory. -/
theorem resetLeavesTheTabledValues : Obligations.ResetLeavesTheTabledValues :=
  ⟨reg_reset, rfl, rfl, rfl, rfl, rfl, rfl, rfl, fun _ => rfl⟩

/-- Settles O15: the reset state is Running, with a blank record and an empty memory. -/
theorem invariantAtReset : Obligations.InvariantAtReset := inv_reset

/-- Settles O9: a push and a pop are each one access to memory and one move of SP, and they undo each other. -/
theorem pushAndPopAreInverse : Obligations.PushAndPopAreInverse := by
  intro s v
  refine ⟨push_sp s v, readMem_push_same s v, sameMemBut_push s v, reg_push s v, push_pc s v, push_sr s v,
    ⟨push_run s v, push_faultPc s v, push_faultOpcode s v⟩, pop_value s, ?_⟩
  rw [pop_state, pop_value, pop_state, setSp_sp, push_sp]
  exact ⟨setSp_sp s _, readMem_setSp s _, reg_setSp s _, setSp_pc s _, setSp_sr s _,
    ⟨setSp_run s _, setSp_faultPc s _, setSp_faultOpcode s _⟩, readMem_push_same s v, BitVec.sub_add_cancel _ _⟩

end Sys2Proof.Machine
end

section
/-! What every step keeps, and what a step into a fault leaves: read off `StepCase`, the inversion of the step. -/

namespace Sys2Proof.Machine

variable {s t : State} {k : Fault}

namespace StepCase

/-- A step into a fault takes it at the old PC, for the opcode byte there, past the bytes of its row; and the state it
leaves shows the cause of that kind. -/
theorem faulted (hc : StepCase s t) (hrun : s.run = .running) (hk : t.run = .faulted k) :
    t = (s.advance (instrLength s.nextOpcode)).raise k s.pc s.nextOpcode ∧ FaultExplained t k := by
  cases hc with
  | divByZero hop hz => cases hk; rw [hop]; exact ⟨rfl, rfl, hz, rfl⟩
  | loadFault hop hr => cases hk; rw [hop]; exact ⟨rfl, .inl ⟨rfl, hr, rfl⟩⟩
  | storeFault hop hr => cases hk; rw [hop]; exact ⟨rfl, .inr (.inl ⟨rfl, hr, rfl⟩)⟩
  | moveFault hop hr => cases hk; rw [hop]; exact ⟨rfl, .inr (.inr ⟨rfl, hr, rfl⟩)⟩
  | syscall hop => cases hk; rw [hop]; exact ⟨rfl, rfl, rfl⟩
  | illegal hop => cases hk; rw [instrLength, hop]; exact ⟨rfl, Option.isNone_iff_eq_none.2 hop, rfl⟩
  | halt => cases hk
  | _ => cases hrun.symm.trans hk

/-- A step that does not fault leaves the fault record (R18). -/
theorem faulted_or_sameRecord (hc : StepCase s t) :
    (∃ k, t.run = .faulted k) ∨ (t.faultPc = s.faultPc ∧ t.faultOpcode = s.faultOpcode) := by
  cases hc with
  | divByZero | loadFault | storeFault | moveFault | syscall | illegal => exact .inl ⟨_, rfl⟩
  | _ => exact .inr ⟨rfl, rfl⟩

theorem sameUpperSr (hc : StepCase s t) : SameUpperSr s t := by
  cases hc with
  | alu v => exact zeroInto_upper s.sr v
  | _ => rfl

theorem memWf (hc : StepCase s t) (hs : Mem.wf s.mem = true) : Mem.wf t.mem = true := by
  cases hc with
  | store => exact wf_writeMem (s := s.advance 4) _ _ hs
  | call => exact wf_push _ (wf_push (s := s.advance 3) _ hs)
  | _ => exact hs

end StepCase

theorem step_faulted (h : step s = .next t) (hk : t.run = .faulted k) :
    t = (s.advance (instrLength s.nextOpcode)).raise k s.pc s.nextOpcode :=
  have ⟨hrun, hc⟩ := step_inversion h
  (hc.faulted hrun hk).1

theorem inv_step (hs : s.Inv) (h : step s = .next t) : t.Inv := by
  obtain ⟨hrun, hc⟩ := step_inversion h
  refine ⟨hc.memWf hs.memWf, hc.sameUpperSr.trans hs.srUpper, fun hno => ?blank, fun k hk => ?true,
    fun k hk => (hc.faulted hrun hk).2⟩
  case blank =>
    obtain ⟨k, hk⟩ | ⟨hpc, hop⟩ := hc.faulted_or_sameRecord
    · exact absurd hk (hno k)
    · rw [hpc, hop]
      exact hs.recordBlank fun k hk => nomatch hrun.symm.trans hk
  case true =>
    rw [step_faulted h hk]
    rfl

/-- A run of `n + 1` steps that is not stopped is a step and a run of `n` steps. -/
theorem step_of_run_succ {M : Host.Core} {n : Nat} {s t : M.State} (h : M.run (n + 1) s = .next t) :
    ∃ s', M.step s = .next s' ∧ M.run n s' = .next t := by
  unfold Host.Core.run at h
  split at h
  case h_1 s' hstep => exact ⟨s', hstep, h⟩
  case h_2 => cases h
  case h_3 => cases h

theorem inv_run (n : Nat) (hs : s.Inv) (h : Host.Core.run Sys2Proof.core n s = .next t) : t.Inv := by
  induction n generalizing s with
  | zero => exact Host.Outcome.next.inj h ▸ hs
  | succ n ih =>
    obtain ⟨s', hstep, hrun⟩ := step_of_run_succ h
    exact ih (inv_step hs hstep) hrun

end Sys2Proof.Machine
end

section
/-! The invariant and the faults. -/

namespace Sys2Proof.Machine

/-- Settles O16: clause by clause, each read off the cases of the step. -/
theorem stepKeepsTheInvariant : Obligations.StepKeepsTheInvariant := fun _ _ hs h => inv_step hs h

/-- Settles O55: `boot` starts a run with the invariant, and every step keeps it. -/
theorem everyRunFromAnImageKeepsTheInvariant : Obligations.EveryRunFromAnImageKeepsTheInvariant :=
  fun _ _ n _ hboot hrun => inv_run n (inv_of_boot hboot) hrun

/-- Settles O42: a step into a fault is a `raise` past the fetched bytes and nothing else. -/
theorem faultsArePrecise : Obligations.FaultsArePrecise := by
  intro s t k h hk
  rw [step_faulted h hk]
  exact raise_faultTaken s k s.nextOpcode (instrLength s.nextOpcode)

/-- Settles O54: the report shows the run state and, of a fault, the record `raise` has written. -/
theorem hostSeesTheTerminalCondition : Obligations.HostSeesTheTerminalCondition := by
  intro s t h
  refine ⟨report_eq_none_iff t, fun hh => by rw [State.report, hh], fun k hk => ?_, ?_⟩
  · rw [step_faulted h hk, report_raise]
  · exact ⟨(· ▸ rfl), (· ▸ rfl), (· ▸ rfl), (· ▸ rfl), (· ▸ rfl), (· ▸ rfl)⟩

/-- Settles O43: the conditions are `runAfter`'s, of the instruction that the bytes at PC decode to; an illegal opcode decodes
to none. -/
theorem faultKindsHaveTheirConditions : Obligations.FaultKindsHaveTheirConditions := by
  intro s t h
  obtain ⟨hrun, ⟨i, hd, he⟩ | ⟨hrow, rfl⟩⟩ := step_cases h
  · rw [run_of_exec s he]
    refine ⟨iff_of_false (runAfter_ne_decodeFault hrun i) (legal_of_decodedFrom hd), ?_, ?_, ?_⟩
    · rw [runAfter_eq_notImplemented_iff hrun, opcode_of_decodedFrom hd]
      exact (opcode_eq_iff_of_row_n (j := .syscall) rfl).symm
    · rw [runAfter_eq_divisionByZero_iff hrun, opcode_of_decodedFrom hd]
      exact and_congr_left' (opcode_eq_iff_of_row_n (j := .div) rfl).symm
    · rw [runAfter_eq_addressingFault_iff (hrun ▸ nofun), wellFormed_eq_false_iff_of_decodedFrom hd]
  · refine ⟨iff_of_true rfl ((opcodeRow_eq_none_iff _).1 hrow), iff_of_false nofun (ne_of_no_row hrow rfl),
      iff_of_false nofun fun ⟨hop, _⟩ => ne_of_no_row hrow rfl hop, iff_of_false nofun ?_⟩
    rintro (⟨hop, -⟩ | ⟨hop, -⟩ | ⟨hop, -⟩) <;> exact ne_of_no_row hrow rfl hop

/-- Settles O44: `runAfter` is Halted for HALT alone, whose opcode is no other instruction's. -/
theorem haltedOnlyByHalt : Obligations.HaltedOnlyByHalt := by
  intro s t h
  obtain ⟨hrun, ⟨i, hd, he⟩ | ⟨hrow, rfl⟩⟩ := step_cases h
  · rw [run_of_exec s he, opcode_of_decodedFrom hd, runAfter_eq_halted_iff hrun]
    exact (opcode_eq_iff_of_row_n (j := .halt) rfl).symm
  · exact iff_of_false nofun (ne_of_no_row hrow rfl)

end Sys2Proof.Machine
end

section
/-! Which step writes which part of the state: the cases of the step that write it, and the frame of all others. -/

namespace Sys2Proof.Machine

/-- Settles O45: the cases with an opcode byte below 8 are an ALU result and a DIV that faults. -/
theorem zeroWrittenByAluOnly : Obligations.ZeroWrittenByAluOnly := by
  intro s t h
  obtain ⟨hrun, hc⟩ := step_inversion h
  refine ⟨hc.sameUpperSr, ?_⟩
  cases hc with
  | alu v hop =>
    obtain ⟨-, hzero, -⟩ := aluResult_done s v
    exact ⟨fun hge => absurd hop (Nat.not_lt.2 hge), fun _ _ => hzero, fun hno => absurd hrun hno⟩
  | divByZero => exact ⟨fun _ => rfl, fun _ h => (nomatch h), fun _ => rfl⟩
  | illegal hop =>
    have hge := sixteen_le_of_no_row hop
    exact ⟨fun _ => rfl, fun _ _ => by omega, fun _ => rfl⟩
  | _ => exact ⟨fun _ => rfl, fun _ _ => by bv_omega, fun _ => rfl⟩

/-- Settles O46: STORE is one `writeMem`, CALL two pushes, and no other case touches memory. -/
theorem memoryWrittenByStoreAndCallOnly : Obligations.MemoryWrittenByStoreAndCallOnly := by
  intro s t h
  obtain ⟨-, hc⟩ := step_inversion h
  cases hc with
  | store r hop =>
    exact ⟨fun hne => absurd hop hne, fun _ => sameMemBut_writeMem (s.advance 4) s.operandAddr _, fun _ => by bv_omega⟩
  | call hop =>
    exact ⟨fun _ hne => absurd hop hne, fun _ => by bv_omega, fun _ => sameMemBut_pushWord (s.advance 3) _⟩
  | _ => exact ⟨fun _ _ _ => rfl, fun _ _ _ => rfl, fun _ _ _ => rfl⟩

/-- Settles O47: CALL's two pushes, RET's two pops, and no other case touches SP. -/
theorem stackPointerMovedByCallAndRetOnly : Obligations.StackPointerMovedByCallAndRetOnly := by
  intro s t h
  obtain ⟨-, hc⟩ := step_inversion h
  cases hc with
  | call hop => exact ⟨fun _ => pushWord_sp (s.advance 3) _, fun _ => by bv_omega, fun hne => absurd hop hne⟩
  | ret hop => exact ⟨fun _ => by bv_omega, fun _ => BitVec.add_assoc s.sp 1#16 1#16, fun _ hne => absurd hop hne⟩
  | illegal hop =>
    have hge := sixteen_le_of_no_row hop
    exact ⟨fun _ => by bv_omega, fun _ => by bv_omega, fun _ _ => rfl⟩
  | _ => exact ⟨fun _ => by bv_omega, fun _ => by bv_omega, fun _ _ => rfl⟩

/-- A register write leaves every register but the one the byte `b` selects. -/
theorem reg_setReg_of_byte_ne {s : State} {d q : Reg} {b : Byte} (v : Byte) (hd : b.toNat = d.val) (hq : q.val ≠ b.toNat) :
    (s.setReg d v).reg q = s.reg q :=
  (reg_setReg s d q v).trans (if_neg fun e : d = q => hq (e ▸ hd.symm))

/-- Settles O48: an ALU result writes R0, LOAD and MOVE the register byte 1 selects, and no other case writes one. -/
theorem registersWrittenAsTabled : Obligations.RegistersWrittenAsTabled := by
  intro s t h
  obtain ⟨-, hc⟩ := step_inversion h
  cases hc with
  | alu v hop =>
    obtain ⟨-, -, -, hregs, -⟩ := aluResult_done s v
    exact ⟨fun _ => hregs, fun _ => by bv_omega, fun _ => by bv_omega⟩
  | load d hop hd =>
    exact ⟨fun _ => by bv_omega, fun _ _ hq => reg_setReg_of_byte_ne _ hd hq, fun _ => by bv_omega⟩
  | move d x hop hd =>
    exact ⟨fun _ => by bv_omega, fun _ _ hq => reg_setReg_of_byte_ne _ hd hq, fun _ => by bv_omega⟩
  | _ => exact ⟨fun _ _ _ => rfl, fun _ _ _ => rfl, fun _ _ => rfl⟩

/-- Settles O49: a case with one opcode byte has that row of the table; an ALU result and an illegal opcode, which have
a range, have the first row and no other. -/
theorem pcAfterStepAsTabled : Obligations.PcAfterStepAsTabled := by
  intro s t h
  obtain ⟨-, hc⟩ := step_inversion h
  cases hc with
  | alu v hop =>
    exact ⟨fun _ => advance_pc_toNat s 1, fun _ => by bv_omega, fun _ => by bv_omega, fun _ => by bv_omega,
      fun _ => by bv_omega, fun _ => by bv_omega⟩
  | illegal hop =>
    have hge := sixteen_le_of_no_row hop
    exact ⟨fun _ => advance_pc_toNat s 1, fun _ => by bv_omega, fun _ => by bv_omega, fun _ => by bv_omega,
      fun _ => by bv_omega, fun _ => by bv_omega⟩
  | divByZero hop | halt hop | syscall hop => simp [hop, BitVec.toNat_add]
  | load _ hop | loadFault hop | store _ hop | storeFault hop => simp [hop, BitVec.toNat_add]
  | move _ _ hop | moveFault hop => simp [hop, BitVec.toNat_add]
  | jmp hop | call hop | ret hop => simp [hop]
  | jmpzTaken hop hz => simp [hop, hz]
  | jmpzNotTaken hop hz => simp [hop, hz, BitVec.toNat_add]

end Sys2Proof.Machine
end

section
/-! No instruction reads the fault record or SR bits 7:1 (10_state R15, R18). -/

namespace Sys2Proof.Machine

/-- The two states differ at most in the fault record and SR bits 7:1. -/
def SameButRecord (s t : State) : Prop :=
  t.regs = s.regs ∧ t.pc = s.pc ∧ t.sp = s.sp ∧ t.zero = s.zero ∧ t.run = s.run ∧ t.mem = s.mem

/-- The state with another fault record and another SR. -/
def State.withRecord (p : Addr) (op sr : Byte) (s : State) : State :=
  { s with faultPc := p, faultOpcode := op, sr := sr }

/-- Each case of each meaning is the same update of the other state. -/
theorem exec_withRecord {s t : State} {i : Instr} (p : Addr) (op : Byte) {sr : Byte} (hz : sr.getLsbD 0 = s.zero)
    (h : exec i s = .next t) : ∃ t', exec i (s.withRecord p op sr) = .next t' ∧ SameButRecord t t' := by
  cases i with
  | add | sub | mul | and | or | xor | not =>
    cases h
    exact ⟨_, rfl, rfl, rfl, rfl, (zero_setZ _ _).trans (zero_setZ _ _).symm, rfl, rfl⟩
  | div =>
    by_cases h0 : s.reg 2 = 0#8
    · cases (exec_div_by_zero s h0).symm.trans h
      exact ⟨_, exec_div_by_zero _ h0, rfl, rfl, rfl, hz, rfl, rfl⟩
    · cases (exec_of_aluOp s rfl fun _ => h0).symm.trans h
      exact ⟨_, exec_of_aluOp _ rfl fun _ => h0, rfl, rfl, rfl, (zero_setZ _ _).trans (zero_setZ _ _).symm, rfl, rfl⟩
  | load b addr =>
    obtain ⟨r, hr, -⟩ | ⟨hb, -⟩ := regIndex_cases b
    · cases (exec_load s addr hr).symm.trans h
      exact ⟨_, exec_load _ addr hr, rfl, rfl, rfl, hz, rfl, rfl⟩
    · cases (exec_load_bad s addr hb).symm.trans h
      exact ⟨_, exec_load_bad _ addr hb, rfl, rfl, rfl, hz, rfl, rfl⟩
  | store addr b =>
    obtain ⟨r, hr, -⟩ | ⟨hb, -⟩ := regIndex_cases b
    · cases (exec_store s addr hr).symm.trans h
      exact ⟨_, exec_store _ addr hr, rfl, rfl, rfl, hz, rfl, rfl⟩
    · cases (exec_store_bad s addr hb).symm.trans h
      exact ⟨_, exec_store_bad _ addr hb, rfl, rfl, rfl, hz, rfl, rfl⟩
  | move bd bs =>
    obtain ⟨d, x, hd, hx⟩ | hb := regBytes_cases bd bs
    · cases (exec_move s hd hx).symm.trans h
      exact ⟨_, exec_move _ hd hx, rfl, rfl, rfl, hz, rfl, rfl⟩
    · cases (exec_move_bad s hb).symm.trans h
      exact ⟨_, exec_move_bad _ hb, rfl, rfl, rfl, hz, rfl, rfl⟩
  | jmpz addr =>
    cases hzs : s.zero with
    | true =>
      cases (exec_jmpz_taken s addr hzs).symm.trans h
      exact ⟨_, exec_jmpz_taken _ addr (hz.trans hzs), rfl, rfl, rfl, hz, rfl, rfl⟩
    | false =>
      cases (exec_jmpz_notTaken s addr hzs).symm.trans h
      exact ⟨_, exec_jmpz_notTaken _ addr (hz.trans hzs), rfl, rfl, rfl, hz, rfl, rfl⟩
  | jmp | call | ret | halt | syscall =>
    cases h
    exact ⟨_, rfl, rfl, rfl, rfl, hz, rfl, rfl⟩

/-- Settles O51: both states have the same window, so they run the same instruction or both take DecodeFault. -/
theorem faultRecordAndUpperSrUnobserved : Obligations.FaultRecordAndUpperSrUnobserved := by
  intro s t p op sr hrun hz h
  change ∃ t', step (s.withRecord p op sr) = .next t' ∧ SameButRecord t t'
  have hrun' : (s.withRecord p op sr).run = .running := hrun
  have hwin : (s.withRecord p op sr).window = s.window := rfl
  cases hd : decodeInstr s.window with
  | some i =>
    rw [step_of_decodeInstr hrun hd] at h
    rw [step_of_decodeInstr hrun' (hwin ▸ hd)]
    exact exec_withRecord p op hz h
  | none =>
    cases (step_of_not_decoded hrun hd).symm.trans h
    exact ⟨_, step_of_not_decoded hrun' (hwin ▸ hd), rfl, rfl, rfl, hz, rfl, rfl⟩

end Sys2Proof.Machine
end
